-- ==== Sys2Proof/Word.lean ====
section
/-! DEFINITION. The byte type and the two-valued line level of FBR (spec/00_scope.md R10, spec/10_state.md R25). -/

namespace Sys2Proof

/-- A byte: 8 bits, bit 0 the least significant (R10). Operands, framebuffer bytes and wire bytes are bytes. -/
abbrev Byte := BitVec 8

/-- The level of a control line: 0 is `low`, 1 is `high` (R12, R25). -/
inductive Level where
  | low
  | high
  deriving DecidableEq, Repr

end Sys2Proof
end

