-- ==== Sys2Proof/Machine/Operands.lean ====
section
/-! DEFINITION. How operands become numbers (spec/00_scope.md R9 to R11, R16, R18; spec/30_encoding.md R64). FBR has one
operand form, the unsigned byte of the packet, and every value computed from it is an exact integer. -/

namespace Sys2Proof.Machine

/-- `zext`: an unsigned operand as a non-negative integer (R10, R64). -/
def zext (b : Byte) : Int := (b.toNat : Int)

/-- `sign(v)`: -1, 0 or 1 (R11). -/
def sign (v : Int) : Int := if v < 0 then -1 else if v = 0 then 0 else 1

/-- `abs(v)` as a natural number (R11). -/
def absNat (v : Int) : Nat := v.natAbs

/-- `tdiv(a, b) = sign(a)*sign(b)*floor(abs(a)/abs(b))`, the quotient rounded toward zero (R11). -/
def tdiv (a b : Int) : Int := sign a * sign b * ((absNat a / absNat b : Nat) : Int)

end Sys2Proof.Machine
end

