-- ==== Sys2Proof/Config.lean ====
section
/-! DEFINITION. What is fixed for one FBR: the geometry and clock the source fixes (spec/00_scope.md R7) and the open
parameters of R8, which have NO BODY: nothing in Lean can evaluate one, so a claim holds for every value of it. -/

namespace Sys2Proof.Config

/-- `WIDTH`, the number of pixel columns (R7). -/
def width : Nat := 84

/-- `HEIGHT`, the number of pixel rows (R7). -/
def height : Nat := 48

/-- `BANDS = ceil(HEIGHT/8)`, the number of bands of eight rows (R7). -/
def bands : Nat := 6

/-- `FB_SIZE = WIDTH * BANDS`, the number of framebuffer bytes (R7, R24). -/
def fbSize : Nat := 504

/-- The bus clock in hertz (R7, R171). -/
def clockHz : Nat := 4000000

/-- `VOP_INIT`, the contrast INIT sends: any value of 0..127 (R8, D19; N5). Log entry 7. -/
opaque vopInit : BitVec 7

/-- `BIAS_INIT`, the bias INIT sends: any value of 0..7 (R8, D19; N6). Log entry 7. -/
opaque biasInit : BitVec 3

/-- `CPOL`, the clock polarity given to the transport at INIT (R8, D21; N4). Log entry 7. -/
opaque cpol : Bool

/-- `CPHA`, the clock phase given to the transport at INIT (R8, D21; N4). Log entry 7. -/
opaque cpha : Bool

/-- `SETCON_BRACKET`: whether SETCON surrounds its Vop byte with function-set commands (R8, R86, D17; N7). Log entry 8. -/
opaque setconBracket : Bool

/-- `TriSpan`: the span end points of one scanline of the filled triangle, a function of the six vertex coordinates
`x0 y0 x1 y1 x2 y2` and of `y`, about which nothing else is known (R8, R132 (c), D11; N9). Log entry 9. -/
opaque triSpan (x0 y0 x1 y1 x2 y2 y : Int) : Int × Int

end Sys2Proof.Config
end

