-- ==== Sys2Proof/Syntax.lean ====
section
/-! DEFINITION. The instructions: the 18 host operations (spec/30_encoding.md R62) and the 7 controller commands FBR
emits (R67), one constructor for each row of spec/opcode_table.json, the operands in packet order under the spec's names. -/

namespace Sys2Proof

/-- The selector of the function-set command: "basic/extended instruction selectors 0x00/0x01" (R30, R67). -/
inductive InstrSet where
  | basic
  | extended
  deriving DecidableEq, Repr

/-- The four display modes of display-control (R30, D16). -/
inductive DisplayMode where
  | blank
  | normal
  | allOn
  | inverted
  deriving DecidableEq, Repr

/-- One row of the opcode table each. The first 18 are host operations, requested by packets of the host's stream; the
last 7 are controller commands, each one byte that FBR puts on the wire in a command frame of its own. -/
inductive Instr where
  /-- SENDCMD byte (R83). -/
  | sendcmd (byte : Byte)
  /-- SENDDAT len, payload (R84). -/
  | senddat (len : BitVec 16) (payload : List Byte)
  /-- SETMODE mode (R85). -/
  | setmode (mode : Byte)
  /-- SETCON value (R86). -/
  | setcon (value : Byte)
  /-- SETCUR x, y (R87). -/
  | setcur (x y : Byte)
  /-- CLRBUF (R103). -/
  | clrbuf
  /-- PIXEL x, y (R105). -/
  | pixel (x y : Byte)
  /-- RDBUF (R104). -/
  | rdbuf
  /-- LINE x0, y0, x1, y1 (R112). -/
  | line (x0 y0 x1 y1 : Byte)
  /-- RECT x, y, width, height (R114). -/
  | rect (x y width height : Byte)
  /-- RECTF x, y, width, height (R115). -/
  | rectf (x y width height : Byte)
  /-- TRI x0, y0, x1, y1, x2, y2 (R131). -/
  | tri (x0 y0 x1 y1 x2 y2 : Byte)
  /-- TRIF x0, y0, x1, y1, x2, y2 (R132). -/
  | trif (x0 y0 x1 y1 x2 y2 : Byte)
  /-- CIRC x0, y0, radius (R142). -/
  | circ (x0 y0 radius : Byte)
  /-- CIRCF x0, y0, radius (R143). -/
  | circf (x0 y0 radius : Byte)
  /-- INIT (R151). -/
  | init
  /-- UPDATE (R152). -/
  | update
  /-- CLRSCR (R153). -/
  | clrscr
  /-- function-set, `0 0 1 0 0 0 0 H` (R67). -/
  | functionSet (h : InstrSet)
  /-- display-control, `0 0 0 0 1 D 0 E` (R67). -/
  | displayControl (mode : DisplayMode)
  /-- X-address-set, `1 X X X X X X X` (R67). -/
  | xAddressSet (x : BitVec 7)
  /-- Y-address-set, `0 1 Y Y Y Y Y Y` (R67). -/
  | yAddressSet (y : BitVec 6)
  /-- Vop-set, `1 V V V V V V V` (R67). -/
  | vopSet (v : BitVec 7)
  /-- temperature-control, `0 0 0 0 0 1 T T` (R67). -/
  | temperatureControl (t : BitVec 2)
  /-- bias-system, `0 0 0 1 0 B B B` (R67). -/
  | biasSystem (b : BitVec 3)
  deriving DecidableEq, Repr

/-- The 18 operations a host can request by a packet (R3, R62). -/
def Instr.isHost : Instr → Bool
  | .sendcmd _ => true
  | .senddat _ _ => true
  | .setmode _ => true
  | .setcon _ => true
  | .setcur _ _ => true
  | .clrbuf => true
  | .pixel _ _ => true
  | .rdbuf => true
  | .line _ _ _ _ => true
  | .rect _ _ _ _ => true
  | .rectf _ _ _ _ => true
  | .tri _ _ _ _ _ _ => true
  | .trif _ _ _ _ _ _ => true
  | .circ _ _ _ => true
  | .circf _ _ _ => true
  | .init => true
  | .update => true
  | .clrscr => true
  | .functionSet _ => false
  | .displayControl _ => false
  | .xAddressSet _ => false
  | .yAddressSet _ => false
  | .vopSet _ => false
  | .temperatureControl _ => false
  | .biasSystem _ => false

end Sys2Proof
end

