-- ==== Sys2Proof/WellFormed.lean ====
section
/-! DEFINITION. Which instruction terms an encoding exists for (spec/30_encoding.md R61, R62, R67). -/

namespace Sys2Proof

/-- The checks on a term. SENDDAT carries exactly `len` payload bytes (R61 format FV, R69). The column of X-address-set
is 0..83 and the field of Y-address-set is 0..47 (R30, R67). Every other operand has only legal values by its type:
"every operand byte is one unsigned 8-bit operand" (R61) and no operand value is reserved (R64). -/
def Instr.wf : Instr → Bool
  | .sendcmd _ => true
  | .senddat len payload => payload.length == len.toNat
  | .setmode _ => true
  | .setcon _ => true
  | .setcur _ _ => true
  | .clrbuf => true
  | .pixel _ _ => true
  | .rdbuf => true
  | .line _ _ _ _ => true
  | .rect _ _ _ _ => true
  | .rectf _ _ _ _ => true
  | .tri _ _ _ _ _ _ => true
  | .trif _ _ _ _ _ _ => true
  | .circ _ _ _ => true
  | .circf _ _ _ => true
  | .init => true
  | .update => true
  | .clrscr => true
  | .functionSet _ => true
  | .displayControl _ => true
  | .xAddressSet x => decide (x.toNat < Config.width)
  | .yAddressSet y => decide (y.toNat < Config.height)
  | .vopSet _ => true
  | .temperatureControl _ => true
  | .biasSystem _ => true

end Sys2Proof
end

