-- ==== Sys2Proof/Decode.lean ====
section
/-! DEFINITION. The two encodings of spec/30_encoding.md: the host packets (R60 to R66) and the one-byte controller
commands (R67). First the decoders, then the encoders, then the host's reading of a table word. -/

namespace Sys2Proof

/-! ### Host packets: opcode map, formats and lengths -/

/-- The packet formats of R61. -/
inductive Format where
  | f0
  | f1
  | f2
  | f3
  | f4
  | f6
  | fv
  deriving DecidableEq, Repr

/-- The format of each opcode byte of the table of R62; none for the reserved opcodes of R65. -/
def formatOf (op : Byte) : Option Format :=
  match op.toNat with
  | 0x01 => some .f1
  | 0x02 => some .fv
  | 0x03 => some .f1
  | 0x04 => some .f1
  | 0x05 => some .f2
  | 0x08 => some .f0
  | 0x09 => some .f2
  | 0x0A => some .f0
  | 0x10 => some .f4
  | 0x12 => some .f4
  | 0x13 => some .f4
  | 0x14 => some .f6
  | 0x15 => some .f6
  | 0x16 => some .f3
  | 0x17 => some .f3
  | 0x20 => some .f0
  | 0x21 => some .f0
  | 0x22 => some .f0
  | _ => none

/-- `len = CMD[cp+1] + 256*CMD[cp+2]`, the one 16-bit operand, low byte first (R43, R63, R64). -/
def senddatLen (lo hi : Byte) : BitVec 16 := BitVec.ofNat 16 (lo.toNat + 256 * hi.toNat)

/-- The packet length `n` of R63, from the packet's own bytes: `none` where the opcode is reserved or the two length bytes
of a SENDDAT are not there. -/
def packetSpan : List Byte → Option Nat
  | [] => none
  | op :: rest =>
    match formatOf op with
    | some .f0 => some 1
    | some .f1 => some 2
    | some .f2 => some 3
    | some .f3 => some 4
    | some .f4 => some 5
    | some .f6 => some 7
    | some .fv =>
      match rest with
      | lo :: hi :: _ => some (3 + (senddatLen lo hi).toNat)
      | _ => none
    | none => none

/-! ### Host packets: decoding -/

/-- Why a stream has no meaning at its first byte (R65): both cases are refused by the machine. -/
inductive DecodeError where
  /-- The opcode byte is not in the table of R62. -/
  | reservedOpcode (op : Byte)
  /-- The packet's bytes run past the end of the stream. -/
  | truncated
  deriving DecidableEq, Repr

/-- What decoding answers: the operation and the bytes after its packet, or why there is none. -/
abbrev Decoded := Except DecodeError (Instr × List Byte)

/-- Format F1 after the opcode: P0 (R61). -/
def decodeF1 (f : Byte → Instr) : List Byte → Decoded
  | p0 :: rest => .ok (f p0, rest)
  | _ => .error .truncated

/-- Format F2 after the opcode: P0, P1 (R61). -/
def decodeF2 (f : Byte → Byte → Instr) : List Byte → Decoded
  | p0 :: p1 :: rest => .ok (f p0 p1, rest)
  | _ => .error .truncated

/-- Format F3 after the opcode: P0 to P2 (R61). -/
def decodeF3 (f : Byte → Byte → Byte → Instr) : List Byte → Decoded
  | p0 :: p1 :: p2 :: rest => .ok (f p0 p1 p2, rest)
  | _ => .error .truncated

/-- Format F4 after the opcode: P0 to P3 (R61). -/
def decodeF4 (f : Byte → Byte → Byte → Byte → Instr) : List Byte → Decoded
  | p0 :: p1 :: p2 :: p3 :: rest => .ok (f p0 p1 p2 p3, rest)
  | _ => .error .truncated

/-- Format F6 after the opcode: P0 to P5 (R61). -/
def decodeF6 (f : Byte → Byte → Byte → Byte → Byte → Byte → Instr) : List Byte → Decoded
  | p0 :: p1 :: p2 :: p3 :: p4 :: p5 :: rest => .ok (f p0 p1 p2 p3 p4 p5, rest)
  | _ => .error .truncated

/-- Format FV after the opcode: len low, len high, then `len` payload bytes (R61, R63). -/
def decodeFV : List Byte → Decoded
  | lo :: hi :: rest =>
    if (senddatLen lo hi).toNat ≤ rest.length then
      .ok (.senddat (senddatLen lo hi) (rest.take (senddatLen lo hi).toNat), rest.drop (senddatLen lo hi).toNat)
    else .error .truncated
  | _ => .error .truncated

/-- Decode one packet at the head of a byte stream, as R60 orders it: the opcode byte against the table of R62, then the
packet's length, then the operands (R64). An empty stream has no packet, so it is truncated. -/
def decode : List Byte → Decoded
  | [] => .error .truncated
  | op :: rest =>
    match op.toNat with
    | 0x01 => decodeF1 .sendcmd rest
    | 0x02 => decodeFV rest
    | 0x03 => decodeF1 .setmode rest
    | 0x04 => decodeF1 .setcon rest
    | 0x05 => decodeF2 .setcur rest
    | 0x08 => .ok (.clrbuf, rest)
    | 0x09 => decodeF2 .pixel rest
    | 0x0A => .ok (.rdbuf, rest)
    | 0x10 => decodeF4 .line rest
    | 0x12 => decodeF4 .rect rest
    | 0x13 => decodeF4 .rectf rest
    | 0x14 => decodeF6 .tri rest
    | 0x15 => decodeF6 .trif rest
    | 0x16 => decodeF3 .circ rest
    | 0x17 => decodeF3 .circf rest
    | 0x20 => .ok (.init, rest)
    | 0x21 => .ok (.update, rest)
    | 0x22 => .ok (.clrscr, rest)
    | _ => .error (.reservedOpcode op)

/-! ### Controller commands: the bytes on the wire -/

/-- The function-set field `H`, bit 0 (R67). -/
def InstrSet.bits : InstrSet → Byte
  | .basic => 0x00
  | .extended => 0x01

/-- The mode bits `D`, `E` at bits 2 and 0 (R30, R67, D16). -/
def DisplayMode.bits : DisplayMode → Byte
  | .blank => 0x00
  | .normal => 0x04
  | .allOn => 0x01
  | .inverted => 0x05

/-- "A command byte is formed as `base | field` on 8-bit values" (R80). -/
def commandByte (base field : Byte) : Byte := base ||| field

/-- function-set: base 0x20 (R30, R67). -/
def functionSetByte (h : InstrSet) : Byte := commandByte 0x20 h.bits

/-- display-control: base 0x08 (R30, R67). -/
def displayControlByte (mode : Byte) : Byte := commandByte 0x08 mode

/-- X-address-set: base 0x80 (R30, R67). -/
def xAddressByte (x : Byte) : Byte := commandByte 0x80 x

/-- Y-address-set: base 0x40 (R30, R67); the byte carries `y` itself (D18, R193). -/
def yAddressByte (y : Byte) : Byte := commandByte 0x40 y

/-- Vop-set: base 0x80, contrast in the low seven bits (R30, R67). -/
def vopByte (v : Byte) : Byte := commandByte 0x80 v

/-- temperature-control: base 0x04 (R30, R67). -/
def temperatureByte (t : Byte) : Byte := commandByte 0x04 t

/-- bias-system: base 0x10 (R30, R67). -/
def biasByte (b : Byte) : Byte := commandByte 0x10 b

/-- One row of the wire table: a byte belongs to it when its masked bits are `value` (R67; spec/opcode_table.json's
match and mask). -/
structure WireRow where
  value : Byte
  mask : Byte
  deriving DecidableEq, Repr

/-- Whether a byte has the fixed bits of a row. -/
def WireRow.covers (r : WireRow) (b : Byte) : Bool := b &&& r.mask == r.value

/-- `0 0 1 0 0 0 0 H`, in either instruction set (R67). -/
def rowFunctionSet : WireRow := { value := 0x20, mask := 0xFE }
/-- `0 0 0 0 1 D 0 E`, basic set (R67). -/
def rowDisplayControl : WireRow := { value := 0x08, mask := 0xFA }
/-- `1 X X X X X X X`, basic set (R67). -/
def rowXAddress : WireRow := { value := 0x80, mask := 0x80 }
/-- `0 1 Y Y Y Y Y Y`, basic set (R67). -/
def rowYAddress : WireRow := { value := 0x40, mask := 0xC0 }
/-- `1 V V V V V V V`, extended set (R67). -/
def rowVop : WireRow := { value := 0x80, mask := 0x80 }
/-- `0 0 0 0 0 1 T T`, extended set (R67). -/
def rowTemperature : WireRow := { value := 0x04, mask := 0xFC }
/-- `0 0 0 1 0 B B B`, extended set (R67). -/
def rowBias : WireRow := { value := 0x10, mask := 0xF8 }

/-- The rows that can be meant in an instruction set: Vop-set and X-address-set have the same bytes and are told apart only
by the set (R30, C6). -/
def wireRows : InstrSet → List WireRow
  | .basic => [rowFunctionSet, rowDisplayControl, rowXAddress, rowYAddress]
  | .extended => [rowFunctionSet, rowVop, rowTemperature, rowBias]

/-- The mode of a display-control byte, from its bits `D` (bit 2) and `E` (bit 0) (R67). -/
def displayModeOf (b : Byte) : DisplayMode :=
  match b.getLsbD 2, b.getLsbD 0 with
  | false, false => .blank
  | true, false => .normal
  | false, true => .allOn
  | true, true => .inverted

/-- The controller command a wire byte is under an instruction set, by R67's layouts; `none` for a byte that is no command
of the seven, a column above 83 and a `Y` field above 47 included (R30). FBR itself never decodes these bytes (C6). -/
def decodeWire (iset : InstrSet) (b : Byte) : Option Instr :=
  if rowFunctionSet.covers b then some (.functionSet (if b.getLsbD 0 then .extended else .basic))
  else
    match iset with
    | .basic =>
      if rowDisplayControl.covers b then some (.displayControl (displayModeOf b))
      else if rowXAddress.covers b then
        if (b.setWidth 7).toNat < Config.width then some (.xAddressSet (b.setWidth 7)) else none
      else if rowYAddress.covers b then
        if (b.setWidth 6).toNat < Config.height then some (.yAddressSet (b.setWidth 6)) else none
      else none
    | .extended =>
      if rowVop.covers b then some (.vopSet (b.setWidth 7))
      else if rowTemperature.covers b then some (.temperatureControl (b.setWidth 2))
      else if rowBias.covers b then some (.biasSystem (b.setWidth 3))
      else none

/-- The instruction sets a controller command belongs to (R67, last column); none for a host operation. -/
def Instr.inSet (iset : InstrSet) : Instr → Bool
  | .sendcmd _ => false
  | .senddat _ _ => false
  | .setmode _ => false
  | .setcon _ => false
  | .setcur _ _ => false
  | .clrbuf => false
  | .pixel _ _ => false
  | .rdbuf => false
  | .line _ _ _ _ => false
  | .rect _ _ _ _ => false
  | .rectf _ _ _ _ => false
  | .tri _ _ _ _ _ _ => false
  | .trif _ _ _ _ _ _ => false
  | .circ _ _ _ => false
  | .circf _ _ _ => false
  | .init => false
  | .update => false
  | .clrscr => false
  | .functionSet _ => true
  | .displayControl _ => iset == .basic
  | .xAddressSet _ => iset == .basic
  | .yAddressSet _ => iset == .basic
  | .vopSet _ => iset == .extended
  | .temperatureControl _ => iset == .extended
  | .biasSystem _ => iset == .extended

/-! ### Encoding -/

/-- The two length bytes of a SENDDAT packet: `len[7:0]`, then `len[15:8]` (R61). -/
def senddatLenBytes (len : BitVec 16) : List Byte := [len.extractLsb' 0 8, len.extractLsb' 8 8]

/-- The bytes of an instruction: the host packet of R61 and R62, or the command byte of R67. -/
def encode : Instr → List Byte
  | .sendcmd byte => [0x01, byte]
  | .senddat len payload => 0x02 :: (senddatLenBytes len ++ payload)
  | .setmode mode => [0x03, mode]
  | .setcon value => [0x04, value]
  | .setcur x y => [0x05, x, y]
  | .clrbuf => [0x08]
  | .pixel x y => [0x09, x, y]
  | .rdbuf => [0x0A]
  | .line x0 y0 x1 y1 => [0x10, x0, y0, x1, y1]
  | .rect x y width height => [0x12, x, y, width, height]
  | .rectf x y width height => [0x13, x, y, width, height]
  | .tri x0 y0 x1 y1 x2 y2 => [0x14, x0, y0, x1, y1, x2, y2]
  | .trif x0 y0 x1 y1 x2 y2 => [0x15, x0, y0, x1, y1, x2, y2]
  | .circ x0 y0 radius => [0x16, x0, y0, radius]
  | .circf x0 y0 radius => [0x17, x0, y0, radius]
  | .init => [0x20]
  | .update => [0x21]
  | .clrscr => [0x22]
  | .functionSet h => [functionSetByte h]
  | .displayControl mode => [displayControlByte mode.bits]
  | .xAddressSet x => [xAddressByte (x.setWidth 8)]
  | .yAddressSet y => [yAddressByte (y.setWidth 8)]
  | .vopSet v => [vopByte (v.setWidth 8)]
  | .temperatureControl t => [temperatureByte (t.setWidth 8)]
  | .biasSystem b => [biasByte (b.setWidth 8)]

/-- The number of packet bytes of an operation, by its format (R61, R63). A controller command has no packet. -/
def packetLength : Instr → Nat
  | .sendcmd _ => 2
  | .senddat len _ => 3 + len.toNat
  | .setmode _ => 2
  | .setcon _ => 2
  | .setcur _ _ => 3
  | .clrbuf => 1
  | .pixel _ _ => 3
  | .rdbuf => 1
  | .line _ _ _ _ => 5
  | .rect _ _ _ _ => 5
  | .rectf _ _ _ _ => 5
  | .tri _ _ _ _ _ _ => 7
  | .trif _ _ _ _ _ _ => 7
  | .circ _ _ _ => 4
  | .circf _ _ _ => 4
  | .init => 1
  | .update => 1
  | .clrscr => 1
  | .functionSet _ => 0
  | .displayControl _ => 0
  | .xAddressSet _ => 0
  | .yAddressSet _ => 0
  | .vopSet _ => 0
  | .temperatureControl _ => 0
  | .biasSystem _ => 0

/-- A program: packets one after another, in the order they are executed (R71, R72). -/
def encodeAll (is : List Instr) : List Byte := is.flatMap encode

/-! ### Table words -/

/-- Byte `i` of a word whose bits are numbered as the opcode table numbers them, the bits from `nbits` up being 0. -/
def wordByte (nbits w i : Nat) : Byte := BitVec.ofNat 8 ((w % 2 ^ nbits) / 2 ^ (8 * i))

/-- The whole packet that begins with a table word: as many bytes as R63 gives it, operand bytes beyond the word being 0;
the bytes of the word alone where its opcode is reserved. Log entry 16. -/
def packetBytes (nbits w : Nat) : List Byte :=
  (List.range ((packetSpan [wordByte nbits w 0, wordByte nbits w 1, wordByte nbits w 2]).getD (nbits / 8))).map
    (wordByte nbits w)

/-- The instruction the packet decoder reads from a table word (log entry 16); `none` where it refuses. -/
def decodeTableWord (nbits w : Nat) : Option Instr :=
  match decode (packetBytes nbits w) with
  | .ok (i, _) => some i
  | .error _ => none

end Sys2Proof
end

