-- ==== Sys2Proof/Machine/State.lean ====
section
/-! DEFINITION. The state of FBR (spec/10_state.md R20, R22, R25 to R28), plain data; the one way it can get stuck and the
refusals of the model; and the state after FBR's own reset (R33). -/

namespace Sys2Proof.Machine

/-- The bit order given to `bus_configure`; FBR always gives the one value (R27, R171: "leading-bit-first"). -/
inductive BitOrder where
  | msbFirst
  deriving DecidableEq, Repr

/-- The wire events, the elements of `TRACE` (R27), each the image of one Transport Adapter call. -/
inductive Event where
  /-- `RST(l)`: drive the reset line to level `l`. -/
  | rst (l : Level)
  /-- `CE(l)`: drive chip enable to level `l`. -/
  | ce (l : Level)
  /-- `DC(l)`: drive command/data select to level `l`. -/
  | dc (l : Level)
  /-- `WAIT1US`: at least 1 microsecond passes before the next event. -/
  | wait1us
  /-- `BUSCFG(clock_hz, bit_order, CPOL, CPHA)`: configure the bus. -/
  | busCfg (clockHz : Nat) (order : BitOrder) (cpol cpha : Bool)
  /-- `TX(b)`: byte `b` has been shifted out on data-out, bit 7 first. -/
  | tx (b : Byte)
  deriving DecidableEq, Repr

/-- What the transport at the other end of the bus calls will do (R166, R8 `TRANSPORT_LIVE`): an input from outside FBR,
not a part of it. Nothing FBR does can read it. Log entry 4. -/
inductive Transport where
  /-- Every blocking transfer completes: `TRANSPORT_LIVE`. -/
  | live
  /-- The next `n` bytes are sent; the transfer of the byte after them never completes. -/
  | stallsAfter (n : Nat)
  deriving DecidableEq, Repr

/-- The framebuffer as a sparse list of (index, byte), in the one canonical form `Memory.wf` of Machine/Ops.lean: indices
strictly rising, below 504, and no entry equal to what an unlisted index reads as. -/
abbrev Memory := List Host.Cell

/-- The whole state of FBR, the tuple of R20, then two inputs of a run: the packet stream and the transport. -/
structure State where
  /-- `FB`, the framebuffer (R24). -/
  fb : Memory
  /-- `RST`, the last level driven on the reset line; none until it is first written (R25, R33). -/
  rst : Option Level
  /-- `CE`, the last level driven on chip enable; none until it is first written (R25, R33). -/
  ce : Option Level
  /-- `DC`, the last level driven on command/data select; none until it is first written (R25, R33). -/
  dc : Option Level
  /-- `BUSCFG`: the bus has been configured by INIT (R26). -/
  busCfg : Bool
  /-- `cp`, the command pointer: an unbounded natural number (R22). -/
  cp : Nat
  /-- `TRACE`, the wire events so far, oldest first (R20, R27). -/
  trace : List Event
  /-- `HOSTOUT`, the bytes returned to the host so far, oldest first (R20, R28). -/
  hostOut : List Byte
  /-- `CMD`, the host's packet stream: an input of a run (R22, R60), held here so that the step can read it. Log entry 2. -/
  cmd : List Byte
  /-- What the transport will do: an input of a run (R166). Log entry 4. -/
  transport : Transport
  deriving DecidableEq, Repr

/-- The one way the machine stops without having refused anything. FBR has no fault to raise (R160). -/
inductive Fault where
  /-- Raised by the byte transfer `tx` of Machine/Ops.lean when the transport never completes it: FBR is stuck inside the
  operation for ever (R166, R195, U12). `stuck` is the state it hangs in: the events already emitted, the lines as they
  were left, `cp` not advanced. Safe: the model goes no further than the hardware does. Log entries 4 and 5. -/
  | transferNeverCompletes (stuck : State)
  deriving DecidableEq, Repr

/-- Where the model gives no behaviour. -/
inductive Refusal where
  /-- Raised by `exec` for an instruction without a meaning, by its mnemonic in the opcode table. Safe: nothing can be
  claimed of it. No arm of `exec` raises it. -/
  | notModelled (mnemonic : String)
  /-- Raised by the fetch on a reserved opcode byte (R65, D5, U4). Safe: the spec asks the model to refuse. -/
  | reservedOpcode (op : Byte)
  /-- Raised by the fetch on a packet whose bytes run past the end of the stream (R65, D5, U5). Safe: the spec asks the
  model to refuse. -/
  | truncatedPacket
  /-- Raised by `cmd` and `data` of Machine/Ops.lean when a frame is attempted while `BUSCFG = 0` (R89, R182, D23, U3).
  Safe: the spec asks the model to refuse. -/
  | busNotConfigured
  deriving DecidableEq, Repr

/-- The state after FBR's own reset (R33): lines unspecified, `BUSCFG = 0`, `cp = 0`, histories empty. The spec leaves the
framebuffer's content open; with nothing listed every byte reads as the model's chosen value (log entry 1). No program is
loaded (log entry 2) and the transport is live (log entry 4). -/
def State.reset : State where
  fb := []
  rst := none
  ce := none
  dc := none
  busCfg := false
  cp := 0
  trace := []
  hostOut := []
  cmd := []
  transport := .live

end Sys2Proof.Machine
end

