-- ==== Sys2Proof/Machine/Ops.lean ====
section
/-! DEFINITION. The shared operations: sequencing of outcomes, the framebuffer and its bit addressing, the single pixel
write, the device-side lines and the byte transfer, the two framing procedures `Cmd` and `Data`, and the fetch.

TAKING AN EXCEPTION AND RETURNING FROM ONE. There is no operation for either here, because FBR has neither: "No operation
raises an exception, sets an error flag or returns an error code" (spec/60_exceptions.md R160), "There is no trap entry
and no trap return: no state is saved, no mode changes, no vector is fetched, no handler exists" (R164), and there are no
interrupts (R163). An abnormal input has the outcome its operation's rule gives (R161). -/

namespace Sys2Proof.Machine

/-! ### Outcomes -/

/-- What an operation answers. -/
abbrev Result := Host.Outcome State Fault Refusal

/-- Go on from a next state; a stop stays a stop. A later step of an operation begins where the earlier one ended (R14). -/
def thenDo (r : Result) (f : State → Result) : Result :=
  match r with
  | .next s => f s
  | .fault e => .fault e
  | .refused e => .refused e

/-! ### The framebuffer (R24, R40, R44) -/

/-- What an index that is not listed reads as. The spec leaves the content after FBR's reset open (R33, U1); the model
chooses 0x00, the value a clear writes (R100). DESIGN CHOICE, unsafe for claims about the reset state: log entry 1. -/
def Memory.unlisted : Byte := 0x00

/-- `FB[i]` (R12). -/
def Memory.read : Memory → Nat → Byte
  | [], _ => Memory.unlisted
  | (a, v) :: rest, i => if a = i then v else Memory.read rest i

/-- `FB[i] <- v` (R12), keeping the canonical form. No operation forms an index outside 0..503 (R47): log entry 21. -/
def Memory.write : Memory → Nat → Byte → Memory
  | [], i, v => if v = Memory.unlisted then [] else [(i, v)]
  | (a, w) :: rest, i, v =>
    if i < a then (if v = Memory.unlisted then (a, w) :: rest else (i, v) :: (a, w) :: rest)
    else if i = a then (if v = Memory.unlisted then rest else (i, v) :: rest)
    else (a, w) :: Memory.write rest i v

/-- The canonical form from index `lo` on: indices rising from `lo`, below 504, and no entry that reads as an unlisted one. -/
def Memory.wfFrom (lo : Nat) : Memory → Bool
  | [] => true
  | (a, v) :: rest =>
    decide (lo ≤ a) && decide (a < Config.fbSize) && decide (v ≠ Memory.unlisted) && Memory.wfFrom (a + 1) rest

/-- The canonical form of a framebuffer. -/
def Memory.wf (m : Memory) : Bool := Memory.wfFrom 0 m

/-- All 504 bytes in ascending index order, "in row-band-major order, with no reordering" (R43, R104, R152). -/
def Memory.bytes (m : Memory) : List Byte := (List.range Config.fbSize).map m.read

/-- `ClearBuffer()`: 504 writes of 0x00 (R100). -/
def clearBuffer (m : Memory) : Memory := (List.range Config.fbSize).foldl (fun m i => m.write i 0x00) m

/-- `ByteIndex(x, y) = x + (y div 8) * 84` (R41). -/
def byteIndex (x y : Nat) : Nat := x + (y / 8) * Config.width

/-- `BitIndex(x, y) = y mod 8` (R41). -/
def bitIndex (y : Nat) : Nat := y % 8

/-- `Mask(x, y) = 1 << (y mod 8)` (R41). -/
def pixelMask (y : Nat) : Byte := (1 : Byte) <<< bitIndex y

/-- Pixel `(x, y)` is set: `(FB[ByteIndex(x, y)] & Mask(x, y)) != 0` (R41). -/
def pixelAt (m : Memory) (x y : Nat) : Bool := m.read (byteIndex x y) &&& pixelMask y != 0

/-- A point offered to `Plot`: any two integers (R101, C9). -/
abbrev Point := Int × Int

/-- On the surface of 84 by 48 pixels; a negative coordinate is not (R101, D7). -/
def onSurface (p : Point) : Bool :=
  decide (0 ≤ p.1) && decide (p.1 < Config.width) && decide (0 ≤ p.2) && decide (p.2 < Config.height)

/-- `Plot(x, y)`, the one pixel write: no access outside the surface, otherwise OR one mask bit into one byte (R45, R101). -/
def plot (p : Point) (m : Memory) : Memory :=
  if onSurface p then
    m.write (byteIndex p.1.toNat p.2.toNat) (m.read (byteIndex p.1.toNat p.2.toNat) ||| pixelMask p.2.toNat)
  else m

/-- Plot a list of points, in its order (the order cannot be seen: R46, U13). -/
def plotAll (ps : List Point) (m : Memory) : Memory := ps.foldl (fun m p => plot p m) m

/-- What a rasterizer operation does to the machine: "All routines draw only through `set_pixel`" (R110), so it changes
the framebuffer by calls of `Plot` and nothing else, and needs no INIT (R183). -/
def draw (ps : List Point) (s : State) : Result := .next { s with fb := plotAll ps s.fb }

/-! ### Device-side lines and the bus (R12, R25 to R27, R171 to R173) -/

/-- `emit E` (R13). -/
def emit (e : Event) (s : State) : State := { s with trace := s.trace ++ [e] }

/-- `RST <- l` and its event (R12). -/
def driveRst (l : Level) (s : State) : State := emit (.rst l) { s with rst := some l }

/-- `CE <- l` and its event (R12); recorded even when the line already holds that level (R27). -/
def driveCe (l : Level) (s : State) : State := emit (.ce l) { s with ce := some l }

/-- `DC <- l` and its event (R12); recorded even when the line already holds that level (R27). -/
def driveDc (l : Level) (s : State) : State := emit (.dc l) { s with dc := some l }

/-- `emit BUSCFG(4000000, MSB_FIRST, CPOL, CPHA); BUSCFG <- 1` (R27, R151, R171). -/
def configureBus (cpol cpha : Bool) (s : State) : State :=
  emit (.busCfg Config.clockHz .msbFirst cpol cpha) { s with busCfg := true }

/-- Whether the transport completes the next `n` byte transfers (R166). -/
def Transport.accepts : Transport → Nat → Bool
  | .live, _ => true
  | .stallsAfter k, n => decide (n ≤ k)

/-- What the transport will do after `n` completed byte transfers (R166). -/
def Transport.after : Transport → Nat → Transport
  | .live, _ => .live
  | .stallsAfter k, n => .stallsAfter (k - n)

/-- `emit TX(b)`: the event stands when the byte has been physically sent; a transfer that never completes leaves FBR
stuck, with the events already emitted and no later one (R27, R166, D24, U12). Log entries 4 and 5. -/
def tx (b : Byte) (s : State) : Result :=
  if s.transport.accepts 1 then .next (emit (.tx b) { s with transport := s.transport.after 1 })
  else .fault (.transferNeverCompletes s)

/-- The bytes of one transfer, in ascending order, each blocking (R82, R172). -/
def txAll : List Byte → State → Result
  | [], s => .next s
  | b :: bs, s => thenDo (tx b s) (txAll bs)

/-- `Cmd(b)`: command mode, chip enable low, one byte, chip enable high (R81). With `BUSCFG = 0` the spec gives it no
behaviour and it is refused (R89). `DC` low is command mode: log entry 10. -/
def cmd (b : Byte) (s : State) : Result :=
  if s.busCfg then thenDo (tx b (driveCe .low (driveDc .low s))) fun t => .next (driveCe .high t)
  else .refused .busNotConfigured

/-- `Data(bytes)`: data mode, chip enable low once for the whole transfer, the bytes, chip enable high (R82, C8); an empty
list gives an empty frame (D29). With `BUSCFG = 0` refused (R89). `DC` high is data mode: log entry 10. -/
def data (bytes : List Byte) (s : State) : Result :=
  if s.busCfg then thenDo (txAll bytes (driveCe .low (driveDc .high s))) fun t => .next (driveCe .high t)
  else .refused .busNotConfigured

/-- `SetCursor(x, y)`: both coordinates are tested before either command is sent (R88, R162); X first, then Y, the byte
carrying `y` itself (D18). -/
def setCursor (x y : Byte) (s : State) : Result :=
  if Config.width ≤ x.toNat ∨ Config.height ≤ y.toNat then .next s
  else thenDo (cmd (xAddressByte x) s) (cmd (yAddressByte y))

/-! ### Fetch (R60) -/

/-- `cp` equals the length of `CMD`: the run is over (R60, R73). -/
def runOver (s : State) : Bool := decide (s.cp = s.cmd.length)

/-- The refusal for a stream that cannot be decoded (R65). -/
def refusalOf : DecodeError → Refusal
  | .reservedOpcode op => .reservedOpcode op
  | .truncated => .truncatedPacket

/-- Fetch and decode the packet at `cp` (R60). The packet stream is read by nothing else and written by nothing (R53). -/
def fetch (s : State) : Except Refusal Instr :=
  match decode (s.cmd.drop s.cp) with
  | .ok (i, _) => .ok i
  | .error e => .error (refusalOf e)

/-- "and then `cp <- cp + n`": the pointer moves when the operation has completed (R22, R60). Log entry 12. -/
def retire (i : Instr) (s : State) : Result := .next { s with cp := s.cp + packetLength i }

/-- The state with a packet as the rest of its stream, at `cp`: what comes before `cp` stays (zeros if `cp` lies beyond the
stream), what comes after it is dropped. Log entry 16. -/
def placePacket (bytes : List Byte) (s : State) : State :=
  { s with cmd := s.cmd.take s.cp ++ List.replicate (s.cp - s.cmd.length) 0x00 ++ bytes }

end Sys2Proof.Machine
end

