-- ==== Sys2Proof/Machine/LineRect.lean ====
section
/-! DEFINITION. The rasterizer's line and rectangle (spec/42_rasterizer_line_rect.md): LINE, RECT, RECTF. A procedure of
the rasterizer is the list of points it plots; the machine plots them (`draw`). -/

namespace Sys2Proof.Machine

/-- The step sign: +1 if `a < b`, else -1 (R111, D9). -/
def stepSign (a b : Int) : Int := if a < b then 1 else -1

/-- The loop of `Line`, from its current `err`, `x`, `y`: the point is plotted before the end test, and both updates test
the same `e2` (R111). The first argument bounds the number of turns: log entry 23. -/
def lineLoop (xb yb dx dy sx sy : Int) : Nat → Int → Int → Int → List Point
  | 0, _, _, _ => []
  | turns + 1, err, x, y =>
    (x, y) ::
      if x = xb ∧ y = yb then []
      else
        lineLoop xb yb dx dy sx sy turns
          (err - (if 2 * err > -dy then dy else 0) + (if 2 * err < dx then dx else 0))
          (if 2 * err > -dy then x + sx else x)
          (if 2 * err < dx then y + sy else y)

/-- `Line(xa, ya, xb, yb)`, the points it plots, in order (R111); it makes `max(dx, dy) + 1` plots (R113 (a)). -/
def linePoints (xa ya xb yb : Int) : List Point :=
  lineLoop xb yb (absNat (xb - xa)) (absNat (yb - ya)) (stepSign xa xb) (stepSign ya yb)
    (max (absNat (xb - xa)) (absNat (yb - ya)) + 1)
    ((absNat (xb - xa) : Int) - absNat (yb - ya)) xa ya

/-- LINE (R112): the end points are not checked; points outside the surface are dropped one by one. -/
def execLine (x0 y0 x1 y1 : Byte) (s : State) : Result :=
  draw (linePoints (zext x0) (zext y0) (zext x1) (zext y1)) s

/-- The one check of RECT and RECTF: the corner `(x, y)` is on the surface (R116). -/
def rectCorner (x y : Byte) : Bool := decide (x.toNat < Config.width) && decide (y.toNat < Config.height)

/-- `XR = X + W - 1`, and `YB = Y + H - 1` likewise, in Z (R116, D10). -/
def farEdge (start size : Byte) : Int := zext start + zext size - 1

/-- RECT's points: top, bottom, left, right (R114). -/
def rectPoints (x y width height : Byte) : List Point :=
  if rectCorner x y then
    linePoints (zext x) (zext y) (farEdge x width) (zext y)
      ++ linePoints (zext x) (farEdge y height) (farEdge x width) (farEdge y height)
      ++ linePoints (zext x) (zext y) (zext x) (farEdge y height)
      ++ linePoints (farEdge x width) (zext y) (farEdge x width) (farEdge y height)
  else []

/-- RECT (R114). -/
def execRect (x y width height : Byte) (s : State) : Result := draw (rectPoints x y width height) s

/-- RECTF's points: one horizontal line for each of `height` rows (R115). -/
def rectfPoints (x y width height : Byte) : List Point :=
  if rectCorner x y then
    (List.range height.toNat).flatMap fun i => linePoints (zext x) (zext y + i) (farEdge x width) (zext y + i)
  else []

/-- RECTF (R115). -/
def execRectf (x y width height : Byte) (s : State) : Result := draw (rectfPoints x y width height) s

end Sys2Proof.Machine
end

