-- ==== Sys2Proof/Machine/Circle.lean ====
section
/-! DEFINITION. The rasterizer's circle (spec/44_rasterizer_circle.md): CIRC, CIRCF. -/

namespace Sys2Proof.Machine

/-- The working values of the circle loop, exact integers (R141, R21). -/
structure CircleState where
  f : Int
  ddFx : Int
  ddFy : Int
  x : Int
  y : Int
  deriving DecidableEq, Repr

/-- The initial values for a radius (R141). -/
def circleStart (r : Int) : CircleState := { f := 1 - r, ddFx := 1, ddFy := -2 * r, x := 0, y := r }

/-- `if f >= 0: y = y - 1; ddF_y = ddF_y + 2; f = f + ddF_y` (R141, D12). -/
def circleStepY (c : CircleState) : CircleState :=
  if 0 ≤ c.f then { c with y := c.y - 1, ddFy := c.ddFy + 2, f := c.f + (c.ddFy + 2) } else c

/-- `x = x + 1; ddF_x = ddF_x + 2; f = f + ddF_x` (R141, D12). -/
def circleStepX (c : CircleState) : CircleState :=
  { c with x := c.x + 1, ddFx := c.ddFx + 2, f := c.f + (c.ddFx + 2) }

/-- The states after each turn of `while x < y`, in order: the moments at which the points of a turn are plotted (R141).
The first argument bounds the number of turns: log entry 23. -/
def circleTurns : Nat → CircleState → List CircleState
  | 0, _ => []
  | turns + 1, c =>
    if c.x < c.y then circleStepX (circleStepY c) :: circleTurns turns (circleStepX (circleStepY c)) else []

/-- The loop ends "after at most `r` turns" (R144 (a)). -/
def circleLoop (r : Byte) : List CircleState := circleTurns r.toNat (circleStart (zext r))

/-- The four axis-extreme points, plotted before the loop in both forms (R141). -/
def axisPoints (x0 y0 r : Int) : List Point := [(x0, y0 + r), (x0, y0 - r), (x0 + r, y0), (x0 - r, y0)]

/-- `Octants`: "plotting 8-way symmetric points each step" (R142). -/
def octants (x0 y0 x y : Int) : List Point :=
  [(x0 + x, y0 + y), (x0 - x, y0 + y), (x0 + x, y0 - y), (x0 - x, y0 - y),
    (x0 + y, y0 + x), (x0 - y, y0 + x), (x0 + y, y0 - x), (x0 - y, y0 - x)]

/-- `Spans`: each octant pair of one row joined by a horizontal line (R143, D12). -/
def spans (x0 y0 x y : Int) : List Point :=
  linePoints (x0 - x) (y0 + y) (x0 + x) (y0 + y)
    ++ linePoints (x0 - x) (y0 - y) (x0 + x) (y0 - y)
    ++ linePoints (x0 - y) (y0 + x) (x0 + y) (y0 + x)
    ++ linePoints (x0 - y) (y0 - x) (x0 + y) (y0 - x)

/-- CIRC's points (R141, R142). -/
def circPoints (x0 y0 r : Byte) : List Point :=
  axisPoints (zext x0) (zext y0) (zext r)
    ++ (circleLoop r).flatMap fun c => octants (zext x0) (zext y0) c.x c.y

/-- CIRC (R142). -/
def execCirc (x0 y0 radius : Byte) (s : State) : Result := draw (circPoints x0 y0 radius) s

/-- CIRCF's points: the four axis points, the spans of each turn, and the final diameter (R141, R143). -/
def circfPoints (x0 y0 r : Byte) : List Point :=
  axisPoints (zext x0) (zext y0) (zext r)
    ++ ((circleLoop r).flatMap fun c => spans (zext x0) (zext y0) c.x c.y)
    ++ linePoints (zext x0 - zext r) (zext y0) (zext x0 + zext r) (zext y0)

/-- CIRCF (R143). -/
def execCircf (x0 y0 radius : Byte) (s : State) : Result := draw (circfPoints x0 y0 radius) s

end Sys2Proof.Machine
end

