-- ==== Sys2Proof/Machine/Framebuffer.lean ====
section
/-! DEFINITION. The framebuffer family (spec/41_framebuffer.md): CLRBUF, PIXEL, RDBUF. None touches a line or the trace,
and all work before INIT (R183). -/

namespace Sys2Proof.Machine

/-- CLRBUF: `ClearBuffer()` (R103). -/
def execClrbuf (s : State) : Result := .next { s with fb := clearBuffer s.fb }

/-- PIXEL: `Plot(zext(x), zext(y))` (R105). -/
def execPixel (x y : Byte) (s : State) : Result := draw [(zext x, zext y)] s

/-- RDBUF: `hostout` all 504 bytes in index order (R104). -/
def execRdbuf (s : State) : Result := .next { s with hostOut := s.hostOut ++ s.fb.bytes }

end Sys2Proof.Machine
end

