-- ==== Sys2Proof/Machine/Protocol.lean ====
section
/-! DEFINITION. The controller protocol family (spec/40_controller_protocol.md): SENDCMD, SENDDAT, SETMODE, SETCON, SETCUR. -/

namespace Sys2Proof.Machine

/-- SENDCMD: `Cmd(byte)`, the byte unexamined (R83, R68). -/
def execSendcmd (byte : Byte) (s : State) : Result := cmd byte s

/-- SENDDAT: `Data(payload[0 .. len-1])`; nothing limits `len` (R84). -/
def execSenddat (len : BitVec 16) (payload : List Byte) (s : State) : Result := data (payload.take len.toNat) s

/-- `mode in {0x00, 0x04, 0x01, 0x05}`: set membership, not a mask (R85, D16). -/
def isMode (mode : Byte) : Bool := mode == 0x00 || mode == 0x04 || mode == 0x01 || mode == 0x05

/-- SETMODE: one display-control command for a valid mode, "nothing at all" for any other value (R85). -/
def execSetmode (mode : Byte) (s : State) : Result :=
  if isMode mode then cmd (displayControlByte mode) s else .next s

/-- `v = min(value, 127)` (R86). -/
def clampContrast (value : Byte) : Byte := if value.toNat ≤ 127 then value else 127

/-- `if SETCON_BRACKET: Cmd(b)` (R86). -/
def cmdIf (bracket : Bool) (b : Byte) (s : State) : Result := if bracket then cmd b s else .next s

/-- SETCON for either value of `SETCON_BRACKET` (R86, D17). -/
def setContrast (bracket : Bool) (value : Byte) (s : State) : Result :=
  thenDo (cmdIf bracket (functionSetByte .extended) s) fun s =>
    thenDo (cmd (vopByte (clampContrast value)) s) fun s => cmdIf bracket (functionSetByte .basic) s

/-- SETCON (R86), for the machine's `SETCON_BRACKET`. -/
def execSetcon (value : Byte) (s : State) : Result := setContrast Config.setconBracket value s

/-- SETCUR: `SetCursor(x, y)` (R87, R88). -/
def execSetcur (x y : Byte) (s : State) : Result := setCursor x y s

end Sys2Proof.Machine
end

