-- ==== Sys2Proof/Machine/Session.lean ====
section
/-! DEFINITION. The display session family (spec/45_display_session.md): INIT, UPDATE, CLRSCR. -/

namespace Sys2Proof.Machine

/-- `n` data frames of one 0x00 byte each (R153). -/
def zeroFrames : Nat → State → Result
  | 0, s => .next s
  | n + 1, s => thenDo (data [0x00] s) (zeroFrames n)

/-- `ClearScreen()`: 504 frames, no cursor command first (R153, D20). -/
def clearScreen (s : State) : Result := zeroFrames Config.fbSize s

/-- The reset pulse: reset low, at least 1 microsecond, reset high (R151, R194). -/
def resetPulse (s : State) : State := driveRst .high (emit .wait1us (driveRst .low s))

/-- Command frames one after another (R81). -/
def cmds : List Byte → State → Result
  | [], s => .next s
  | b :: bs, s => thenDo (cmd b s) (cmds bs)

/-- The bring-up sequence: extended set, Vop, temperature coefficient 0, bias, basic set, display mode NORMAL (R151). -/
def bringUpBytes (vop : BitVec 7) (bias : BitVec 3) : List Byte :=
  [functionSetByte .extended, vopByte (vop.setWidth 8), temperatureByte 0, biasByte (bias.setWidth 8),
    functionSetByte .basic, displayControlByte DisplayMode.normal.bits]

/-- INIT for any values of the open parameters (R151): the reset pulse, the bus configuration, the bring-up commands, then
the framebuffer cleared and the peer's RAM zeroed. -/
def bringUp (vop : BitVec 7) (bias : BitVec 3) (cpol cpha : Bool) (s : State) : Result :=
  thenDo (cmds (bringUpBytes vop bias) (configureBus cpol cpha (resetPulse s))) fun s =>
    clearScreen { s with fb := clearBuffer s.fb }

/-- INIT (R151), for the machine's `VOP_INIT`, `BIAS_INIT`, `CPOL` and `CPHA`. -/
def execInit (s : State) : Result := bringUp Config.vopInit Config.biasInit Config.cpol Config.cpha s

/-- UPDATE: `SetCursor(0, 0)`, then the whole framebuffer in one data frame, the bytes being those it holds when the
operation starts (R152). -/
def execUpdate (s : State) : Result := thenDo (setCursor 0 0 s) (data s.fb.bytes)

/-- CLRSCR: `ClearScreen()`; the framebuffer is neither read nor written (R153). -/
def execClrscr (s : State) : Result := clearScreen s

end Sys2Proof.Machine
end

