-- ==== Sys2Proof/Machine/Triangle.lean ====
section
/-! DEFINITION. The rasterizer's triangle (spec/43_rasterizer_triangle.md): TRI, TRIF. -/

namespace Sys2Proof.Machine

/-- TRI's points: the edges P0-P1, P1-P2, P2-P0, in these directions (R131, D11). -/
def triPoints (x0 y0 x1 y1 x2 y2 : Int) : List Point :=
  linePoints x0 y0 x1 y1 ++ linePoints x1 y1 x2 y2 ++ linePoints x2 y2 x0 y0

/-- TRI (R131). -/
def execTri (x0 y0 x1 y1 x2 y2 : Byte) (s : State) : Result :=
  draw (triPoints (zext x0) (zext y0) (zext x1) (zext y1) (zext x2) (zext y2)) s

/-- TRIF's points for a span function: one horizontal span for each scanline from the smallest to the largest vertex row,
both included (R132). `span y` are the two ends on scanline `y`. -/
def trifPoints (span : Int → Int × Int) (y0 y1 y2 : Int) : List Point :=
  (List.range (absNat (max y0 (max y1 y2) - min y0 (min y1 y2)) + 1)).flatMap fun k =>
    linePoints (span (min y0 (min y1 y2) + k)).1 (min y0 (min y1 y2) + k)
      (span (min y0 (min y1 y2) + k)).2 (min y0 (min y1 y2) + k)

/-- TRIF (R132), for the machine's open `TriSpan`. -/
def execTrif (x0 y0 x1 y1 x2 y2 : Byte) (s : State) : Result :=
  draw (trifPoints (Config.triSpan (zext x0) (zext y0) (zext x1) (zext y1) (zext x2) (zext y2))
    (zext y0) (zext y1) (zext y2)) s

/-- `Interp`: the `x` of row `y` on the line through two points; a horizontal edge is not divided by (R133). -/
def interp (xa ya xb yb y : Int) : Int := if ya = yb then xa else xa + tdiv ((xb - xa) * (y - ya)) (yb - ya)

/-- `TriSpanDefault`, the spec's own instance of `TriSpan` for executable tests (R134); the machine does not assume it. -/
def triSpanDefault (x0 y0 x1 y1 x2 y2 y : Int) : Int × Int :=
  (if y < y1 then interp x0 y0 x1 y1 y else interp x1 y1 x2 y2 y, interp x0 y0 x2 y2 y)

end Sys2Proof.Machine
end

