-- ==== Sys2Proof/Machine/WireCommands.lean ====
section
/-! DEFINITION. The seven controller commands (spec/30_encoding.md R67, spec/10_state.md R30). "Every controller command is
exactly one byte, `base | field`, sent in a command frame of its own" (R67): that frame, of `Cmd` (R81), is the whole
effect a command has on FBR. What the peer does with it is outside FBR (R31, D30). No packet asks for one by name: FBR
emits them inside INIT, UPDATE, SETMODE, SETCON and SETCUR, and a host can send one with SENDCMD. Log entry 6. -/

namespace Sys2Proof.Machine

/-- function-set: 0x20 basic, 0x21 extended (R30, R67). -/
def execFunctionSet (h : InstrSet) (s : State) : Result := cmd (functionSetByte h) s

/-- display-control: 0x08, 0x0C, 0x09, 0x0D (R30, R67). -/
def execDisplayControl (mode : DisplayMode) (s : State) : Result := cmd (displayControlByte mode.bits) s

/-- X-address-set: 0x80 with the column in bits 6:0 (R30, R67). -/
def execXAddressSet (x : BitVec 7) (s : State) : Result := cmd (xAddressByte (x.setWidth 8)) s

/-- Y-address-set: 0x40 with the field in bits 5:0 (R30, R67). -/
def execYAddressSet (y : BitVec 6) (s : State) : Result := cmd (yAddressByte (y.setWidth 8)) s

/-- Vop-set: 0x80 with the contrast in bits 6:0 (R30, R67). -/
def execVopSet (v : BitVec 7) (s : State) : Result := cmd (vopByte (v.setWidth 8)) s

/-- temperature-control: 0x04 with the coefficient in bits 1:0 (R30, R67). -/
def execTemperatureControl (t : BitVec 2) (s : State) : Result := cmd (temperatureByte (t.setWidth 8)) s

/-- bias-system: 0x10 with the bias value in bits 2:0 (R30, R67). -/
def execBiasSystem (b : BitVec 3) (s : State) : Result := cmd (biasByte (b.setWidth 8)) s

end Sys2Proof.Machine
end

