-- ==== Sys2Proof/Machine/Dispatch.lean ====
section
/-! DEFINITION. One arm per row of the opcode table, each one call of the instruction's own meaning. -/

namespace Sys2Proof.Machine

def exec (i : Instr) (s : State) : Host.Outcome State Fault Refusal :=
  match i with
  -- controller protocol (spec/40_controller_protocol.md)
  | .sendcmd byte => Sys2Proof.Machine.execSendcmd byte s
  | .senddat len payload => Sys2Proof.Machine.execSenddat len payload s
  | .setmode mode => Sys2Proof.Machine.execSetmode mode s
  | .setcon value => Sys2Proof.Machine.execSetcon value s
  | .setcur x y => Sys2Proof.Machine.execSetcur x y s
  -- framebuffer (spec/41_framebuffer.md)
  | .clrbuf => Sys2Proof.Machine.execClrbuf s
  | .pixel x y => Sys2Proof.Machine.execPixel x y s
  | .rdbuf => Sys2Proof.Machine.execRdbuf s
  -- rasterizer (spec/42 to spec/44)
  | .line x0 y0 x1 y1 => Sys2Proof.Machine.execLine x0 y0 x1 y1 s
  | .rect x y width height => Sys2Proof.Machine.execRect x y width height s
  | .rectf x y width height => Sys2Proof.Machine.execRectf x y width height s
  | .tri x0 y0 x1 y1 x2 y2 => Sys2Proof.Machine.execTri x0 y0 x1 y1 x2 y2 s
  | .trif x0 y0 x1 y1 x2 y2 => Sys2Proof.Machine.execTrif x0 y0 x1 y1 x2 y2 s
  | .circ x0 y0 radius => Sys2Proof.Machine.execCirc x0 y0 radius s
  | .circf x0 y0 radius => Sys2Proof.Machine.execCircf x0 y0 radius s
  -- display session (spec/45_display_session.md)
  | .init => Sys2Proof.Machine.execInit s
  | .update => Sys2Proof.Machine.execUpdate s
  | .clrscr => Sys2Proof.Machine.execClrscr s
  -- controller commands (spec/30_encoding.md R67)
  | .functionSet h => Sys2Proof.Machine.execFunctionSet h s
  | .displayControl mode => Sys2Proof.Machine.execDisplayControl mode s
  | .xAddressSet x => Sys2Proof.Machine.execXAddressSet x s
  | .yAddressSet y => Sys2Proof.Machine.execYAddressSet y s
  | .vopSet v => Sys2Proof.Machine.execVopSet v s
  | .temperatureControl t => Sys2Proof.Machine.execTemperatureControl t s
  | .biasSystem b => Sys2Proof.Machine.execBiasSystem b s

end Sys2Proof.Machine
end

