-- ==== Sys2Proof/Machine/Step.lean ====
section
/-! DEFINITION. One step: one operation of the host's stream, from fetch to the move of the command pointer (spec/30_encoding.md
R60; each operation is one atomic step, D24). -/

namespace Sys2Proof.Machine

/-- At the end of the stream the run is over and the state stays as it is (R73, D26; log entry 3). Otherwise fetch and decode
the packet at `cp`, perform the operation, then advance `cp` (R60); a reserved or truncated packet is refused (R65). -/
def step (s : State) : Host.Outcome State Fault Refusal :=
  if runOver s then .next s
  else
    match fetch s with
    | .ok i => thenDo (exec i s) (retire i)
    | .error r => .refused r

/-- `s` with the packet that begins with a table word as the rest of its stream, so that the next step runs exactly that
operation (log entries 2 and 16). -/
def State.withFetchWord (s : State) (nbits w : Nat) : State := placePacket (packetBytes nbits w) s

end Sys2Proof.Machine
end

