-- ==== Sys2Proof/Machine/Trace.lean ====
section
/-! DEFINITION. What can be read off a trace: the frame view the peer sees (spec/10_state.md R29), the last level of each
line (R25), whether the bus was configured (R26), the bits on data-out (R43, R172), the least time it takes (spec/70 R197)
and the instruction set its last function-set command selects (R30, R191). The machine's step uses none of these; claims do. -/

namespace Sys2Proof.Machine

/-- The events of one complete frame: what `Cmd(b)` appends with `DC` low and `[b]`, and `Data(bytes)` with `DC` high and
`bytes` (R81, R82: "Trace appended"). -/
def frameEvents (dc : Level) (bytes : List Byte) : List Event :=
  [.dc dc, .ce .low] ++ bytes.map .tx ++ [.ce .high]

/-- The state after one complete frame: the lines as it leaves them, its events appended, the transport that many bytes
further (R81, R82, R166). -/
def afterFrame (dc : Level) (bytes : List Byte) (s : State) : State :=
  { s with dc := some dc, ce := some .high, trace := s.trace ++ frameEvents dc bytes,
           transport := s.transport.after bytes.length }

/-- The state FBR is stuck in when the transport completes only the first `n` bytes of a frame: chip enable still low, the
events before the byte that is never sent, no later one (R166). -/
def stuckInFrame (dc : Level) (bytes : List Byte) (n : Nat) (s : State) : State :=
  { s with dc := some dc, ce := some .low, trace := s.trace ++ ([.dc dc, .ce .low] ++ (bytes.take n).map .tx),
           transport := .stallsAfter 0 }

/-- One frame: the level of `DC` at the `CE(0)` event and the bytes sent until `CE(1)` (R29). -/
structure Frame where
  dc : Option Level
  bytes : List Byte
  deriving DecidableEq, Repr

/-- A frame sent with `DC` low (R29). -/
def commandFrame (b : Byte) : Frame := { dc := some .low, bytes := [b] }

/-- A frame sent with `DC` high (R29). -/
def dataFrame (bytes : List Byte) : Frame := { dc := some .high, bytes := bytes }

/-- A reading of a trace from its oldest event: the level of `DC`, the frame that is open if any, the frames that are
complete, and whether every event so far was in its place (log entry 25). -/
structure FrameScan where
  dc : Option Level
  current : Option Frame
  complete : List Frame
  tidy : Bool
  deriving DecidableEq, Repr

/-- Before the first event. -/
def FrameScan.start : FrameScan := { dc := none, current := none, complete := [], tidy := true }

/-- One event more. Not in its place: `DC` written or chip enable lowered inside a frame; a byte, or chip enable raised,
outside one (R29: every `TX` lies inside exactly one frame, and `DC` never changes inside a frame). -/
def FrameScan.event (r : FrameScan) (e : Event) : FrameScan :=
  match e, r.current with
  | .dc l, none => { r with dc := some l }
  | .dc _, some _ => { r with tidy := false }
  | .ce .low, none => { r with current := some { dc := r.dc, bytes := [] } }
  | .ce .low, some _ => { r with tidy := false }
  | .ce .high, some f => { r with current := none, complete := r.complete ++ [f] }
  | .ce .high, none => { r with tidy := false }
  | .tx b, some f => { r with current := some { f with bytes := f.bytes ++ [b] } }
  | .tx _, none => { r with tidy := false }
  | .rst _, _ => r
  | .wait1us, _ => r
  | .busCfg _ _ _ _, _ => r

/-- The reading of a whole trace. -/
def scanFrames (t : List Event) : FrameScan := t.foldl FrameScan.event FrameScan.start

/-- The frame view: the frames of a trace, oldest first (R29). -/
def frames (t : List Event) : List Frame := (scanFrames t).complete

/-- Every event is in its place and no frame is open (R29). -/
def framesClosed (t : List Event) : Bool := (scanFrames t).tidy && (scanFrames t).current.isNone

/-- The level an event drives on the reset line, if it drives it. -/
def Event.rstLevel : Event → Option Level
  | .rst l => some l
  | _ => none

/-- The level an event drives on chip enable, if it drives it. -/
def Event.ceLevel : Event → Option Level
  | .ce l => some l
  | _ => none

/-- The level an event drives on command/data select, if it drives it. -/
def Event.dcLevel : Event → Option Level
  | .dc l => some l
  | _ => none

/-- The last level driven on the reset line, none if nothing has driven it (R25). -/
def lastRst (t : List Event) : Option Level :=
  t.foldl (fun l e => e.rstLevel.or l) none

/-- The last level driven on chip enable, none if nothing has driven it (R25). -/
def lastCe (t : List Event) : Option Level :=
  t.foldl (fun l e => e.ceLevel.or l) none

/-- The last level driven on command/data select, none if nothing has driven it (R25). -/
def lastDc (t : List Event) : Option Level :=
  t.foldl (fun l e => e.dcLevel.or l) none

/-- Whether an event configures the bus. -/
def Event.isBusCfg : Event → Bool
  | .busCfg _ _ _ _ => true
  | _ => false

/-- Whether the bus has been configured in a trace (R26). -/
def busConfigured (t : List Event) : Bool := t.any Event.isBusCfg

/-- The bits of one byte on data-out, in the order they leave: most-significant first (R27, R43, R172). -/
def serialBits (b : Byte) : List Bool := (List.range 8).map fun i => b.getLsbD (7 - i)

/-- The bytes of a trace in the order they were sent. -/
def sentBytes (t : List Event) : List Byte := t.flatMap fun e => match e with | .tx b => [b] | _ => []

/-- The bit stream on data-out (R172). -/
def dataOut (t : List Event) : List Bool := (sentBytes t).flatMap serialBits

/-- The least time an event takes, in nanoseconds: eight periods of the 4 MHz clock for a byte, 1 microsecond for the wait;
the source gives no other figure, so no other event has a lower bound above 0 (R169, R194, R197). Log entry 19. -/
def Event.leastNanoseconds : Event → Nat
  | .tx _ => 8 * (1000000000 / Config.clockHz)
  | .wait1us => 1000
  | _ => 0

/-- A lower bound of the time a trace takes (R197). -/
def leastNanoseconds (t : List Event) : Nat := (t.map Event.leastNanoseconds).sum

/-- The instruction set a command byte selects, if it is a function-set command (R67). -/
def selectedBy (b : Byte) : Option InstrSet :=
  if rowFunctionSet.covers b then some (if b.getLsbD 0 then .extended else .basic) else none

/-- The instruction set selected by the last function-set command of some frames, starting from `iset` (R30: the peer tells
two commands apart "by which instruction set the last function-set command selected"). FBR keeps no record of it (R191). -/
def selectedSet (fs : List Frame) (iset : Option InstrSet) : Option InstrSet :=
  fs.foldl (fun i f => if f.dc = some .low then f.bytes.foldl (fun i b => (selectedBy b).or i) i else i) iset

end Sys2Proof.Machine
end

