-- ==== Sys2Proof/Safety.lean ====
section
/-! DEFINITION. What claims speak of: the states the spec allows right after reset, the invariant of FBR, the end of a run
and the assumption under which an operation completes. -/

namespace Sys2Proof.Machine

/-- Every state the spec allows after FBR's own reset (R33): the framebuffer may hold anything ("a claim must hold for every
initial content"), and the inputs of the run, the stream and the transport, are any. `State.reset` is one of them. -/
def PowerOn (s : State) : Prop :=
  s.fb.wf = true ∧ s = { State.reset with fb := s.fb, cmd := s.cmd, transport := s.transport }

/-- The run is over (R73). -/
def Finished (s : State) : Prop := s.cp = s.cmd.length

/-- `TRANSPORT_LIVE` (R8, R166). -/
def TransportLive (s : State) : Prop := s.transport = .live

/-- What holds of FBR between operations. -/
structure Inv (s : State) : Prop where
  /-- The framebuffer is in canonical form: no index outside 0..503 is ever formed (R47). -/
  memory : s.fb.wf = true
  /-- `cp` never passes the end of the stream (R60, R65). -/
  pointer : s.cp ≤ s.cmd.length
  /-- Every byte sent lies inside exactly one frame and no frame is left open (R29, R91). -/
  framed : framesClosed s.trace = true
  /-- Each line register holds the last level written, and nothing if nothing has been written (R25). -/
  rstLast : s.rst = lastRst s.trace
  ceLast : s.ce = lastCe s.trace
  dcLast : s.dc = lastDc s.trace
  /-- `BUSCFG` is 1 once INIT has configured the bus and 0 before (R26). -/
  bus : s.busCfg = busConfigured s.trace
  /-- Chip enable is low only inside a transfer (R25), so never between operations. -/
  idle : s.ce ≠ some .low
  /-- Only RDBUF writes `HOSTOUT`, 504 bytes at a time (R28, R104). -/
  readouts : s.hostOut.length % Config.fbSize = 0

/-- The operations that work before INIT as after it, whatever the transport does: those of R183, and nothing else. -/
def needsNoInit : Instr → Bool
  | .sendcmd _ => false
  | .senddat _ _ => false
  | .setmode _ => false
  | .setcon _ => false
  | .setcur _ _ => false
  | .clrbuf => true
  | .pixel _ _ => true
  | .rdbuf => true
  | .line _ _ _ _ => true
  | .rect _ _ _ _ => true
  | .rectf _ _ _ _ => true
  | .tri _ _ _ _ _ _ => true
  | .trif _ _ _ _ _ _ => true
  | .circ _ _ _ => true
  | .circf _ _ _ => true
  | .init => false
  | .update => false
  | .clrscr => false
  | .functionSet _ => false
  | .displayControl _ => false
  | .xAddressSet _ => false
  | .yAddressSet _ => false
  | .vopSet _ => false
  | .temperatureControl _ => false
  | .biasSystem _ => false

/-- The operations that draw: they change the framebuffer by calls of `Plot` only (R46, R110). -/
def isDrawing : Instr → Bool
  | .sendcmd _ => false
  | .senddat _ _ => false
  | .setmode _ => false
  | .setcon _ => false
  | .setcur _ _ => false
  | .clrbuf => false
  | .pixel _ _ => true
  | .rdbuf => false
  | .line _ _ _ _ => true
  | .rect _ _ _ _ => true
  | .rectf _ _ _ _ => true
  | .tri _ _ _ _ _ _ => true
  | .trif _ _ _ _ _ _ => true
  | .circ _ _ _ => true
  | .circf _ _ _ => true
  | .init => false
  | .update => false
  | .clrscr => false
  | .functionSet _ => false
  | .displayControl _ => false
  | .xAddressSet _ => false
  | .yAddressSet _ => false
  | .vopSet _ => false
  | .temperatureControl _ => false
  | .biasSystem _ => false

/-- The points an operation plots (R46); none for an operation that does not draw. -/
def plottedPoints : Instr → List Point
  | .sendcmd _ => []
  | .senddat _ _ => []
  | .setmode _ => []
  | .setcon _ => []
  | .setcur _ _ => []
  | .clrbuf => []
  | .pixel x y => [(zext x, zext y)]
  | .rdbuf => []
  | .line x0 y0 x1 y1 => linePoints (zext x0) (zext y0) (zext x1) (zext y1)
  | .rect x y width height => rectPoints x y width height
  | .rectf x y width height => rectfPoints x y width height
  | .tri x0 y0 x1 y1 x2 y2 => triPoints (zext x0) (zext y0) (zext x1) (zext y1) (zext x2) (zext y2)
  | .trif x0 y0 x1 y1 x2 y2 =>
    trifPoints (Config.triSpan (zext x0) (zext y0) (zext x1) (zext y1) (zext x2) (zext y2)) (zext y0) (zext y1) (zext y2)
  | .circ x0 y0 radius => circPoints x0 y0 radius
  | .circf x0 y0 radius => circfPoints x0 y0 radius
  | .init => []
  | .update => []
  | .clrscr => []
  | .functionSet _ => []
  | .displayControl _ => []
  | .xAddressSet _ => []
  | .yAddressSet _ => []
  | .vopSet _ => []
  | .temperatureControl _ => []
  | .biasSystem _ => []

/-- The number of bytes an operation sends in frames, for a framebuffer of 504 bytes: what the transport must complete. -/
def bytesSent : Instr → Nat
  | .sendcmd _ => 1
  | .senddat len payload => min len.toNat payload.length
  | .setmode mode => if isMode mode then 1 else 0
  | .setcon _ => if Config.setconBracket then 3 else 1
  | .setcur x y => if Config.width ≤ x.toNat ∨ Config.height ≤ y.toNat then 0 else 2
  | .clrbuf => 0
  | .pixel _ _ => 0
  | .rdbuf => 0
  | .line _ _ _ _ => 0
  | .rect _ _ _ _ => 0
  | .rectf _ _ _ _ => 0
  | .tri _ _ _ _ _ _ => 0
  | .trif _ _ _ _ _ _ => 0
  | .circ _ _ _ => 0
  | .circf _ _ _ => 0
  | .init => 6 + Config.fbSize
  | .update => 2 + Config.fbSize
  | .clrscr => Config.fbSize
  | .functionSet _ => 1
  | .displayControl _ => 1
  | .xAddressSet _ => 1
  | .yAddressSet _ => 1
  | .vopSet _ => 1
  | .temperatureControl _ => 1
  | .biasSystem _ => 1

/-- The operations that reach `Cmd` or `Data` without INIT's own bus configuration: those that need an earlier INIT (R182). -/
def sendsFrame : Instr → Bool
  | .sendcmd _ => true
  | .senddat _ _ => true
  | .setmode mode => isMode mode
  | .setcon _ => true
  | .setcur x y => decide (x.toNat < Config.width) && decide (y.toNat < Config.height)
  | .clrbuf => false
  | .pixel _ _ => false
  | .rdbuf => false
  | .line _ _ _ _ => false
  | .rect _ _ _ _ => false
  | .rectf _ _ _ _ => false
  | .tri _ _ _ _ _ _ => false
  | .trif _ _ _ _ _ _ => false
  | .circ _ _ _ => false
  | .circf _ _ _ => false
  | .init => false
  | .update => true
  | .clrscr => true
  | .functionSet _ => true
  | .displayControl _ => true
  | .xAddressSet _ => true
  | .yAddressSet _ => true
  | .vopSet _ => true
  | .temperatureControl _ => true
  | .biasSystem _ => true

end Sys2Proof.Machine
end

