-- ==== Sys2Proof/Certificates/Slice0/Obligations.lean ====
section
/-! DEFINITION. The statements for the provers, in the order of the spec's files: reset and the invariant, the encodings,
the step, the controller protocol, the framebuffer, the rasterizer, the session, and rules of the whole machine. -/

open Sys2Proof Sys2Proof.Machine

/-! ### Reset and the invariant -/

/-- What FBR's own reset leaves, in every state the spec allows after it (R33): lines unspecified, `BUSCFG = 0`, `cp = 0`,
histories empty, the framebuffer any. `State.reset` is one such state (its framebuffer is the model's choice, log entry 1),
and every framebuffer gives another. -/
def Obligations.PowerOnLeavesTheSpecifiedValues : Prop :=
  (∀ m : Memory, m.wf = true → PowerOn { State.reset with fb := m })
    ∧ ∀ s : State, PowerOn s →
      s.rst = none ∧ s.ce = none ∧ s.dc = none ∧ s.busCfg = false ∧ s.cp = 0 ∧ s.trace = [] ∧ s.hostOut = []

/-- The invariant holds in every state the spec allows after FBR's reset. -/
def Obligations.PowerOnMeetsTheInvariant : Prop := ∀ s : State, PowerOn s → Inv s

/-- Every step keeps the invariant: the framebuffer canonical (R47), the pointer within the stream (R60), every byte sent
inside exactly one closed frame (R29), each line register at the last level written (R25), `BUSCFG` as the trace says (R26),
chip enable not low between operations (R25), and readouts whole (R104). Frames as log entry 25 reads them. -/
def Obligations.StepKeepsTheInvariant : Prop := ∀ s t : State, Inv s → step s = .next t → Inv t

/-! ### The encodings -/

/-- Decoding the packet of a well-formed operation gives it back, whatever follows the packet (R60 to R64). -/
def Obligations.DecodeGivesBackEveryEncodedOperation : Prop :=
  ∀ (i : Instr) (rest : List Byte), i.isHost = true → i.wf = true → decode (encode i ++ rest) = .ok (i, rest)

/-- Each packet has one meaning: what decodes is a well-formed operation, and the bytes taken are its encoding (R60 to R64). -/
def Obligations.DecodedBytesAreTheEncoding : Prop :=
  ∀ (bs : List Byte) (i : Instr) (rest : List Byte), decode bs = .ok (i, rest) →
    i.isHost = true ∧ i.wf = true ∧ bs = encode i ++ rest

/-- The length of a packet is the one its format gives (R61, R63), SENDDAT's being `3 + len`. -/
def Obligations.PacketSpanIsTheFormatLength : Prop :=
  ∀ (i : Instr) (rest : List Byte), i.isHost = true → i.wf = true →
    packetSpan (encode i ++ rest) = some (packetLength i) ∧ (encode i).length = packetLength i

/-- Words written out from the tables of R61 and R62 decode to their operations. -/
def Obligations.SamplePacketsDecode : Prop :=
  decode [0x01, 0x21] = .ok (.sendcmd 0x21, [])
    ∧ decode [0x02, 0x02, 0x00, 0xFF, 0x00] = .ok (.senddat 2 [0xFF, 0x00], [])
    ∧ decode [0x05, 0x53, 0x05] = .ok (.setcur 83 5, [])
    ∧ decode [0x09, 0x0A, 0x14] = .ok (.pixel 10 20, [])
    ∧ decode [0x10, 0x00, 0x00, 0x05, 0x02] = .ok (.line 0 0 5 2, [])
    ∧ decode [0x13, 0x0A, 0x0A, 0x14, 0x0A] = .ok (.rectf 10 10 20 10, [])
    ∧ decode [0x15, 0x02, 0x01, 0x00, 0x05, 0x06, 0x07] = .ok (.trif 2 1 0 5 6 7, [])
    ∧ decode [0x16, 0x2A, 0x18, 0x0A] = .ok (.circ 42 24 10, [])
    ∧ decode [0x21] = .ok (.update, [])
    ∧ decodeWire .extended 0xBF = some (.vopSet 63)
    ∧ decodeWire .basic 0xBF = some (.xAddressSet 63)

/-- Reading a controller command's byte under an instruction set it belongs to gives the command back, only its own byte
reads as it, and within one instruction set no byte has the fixed bits of two rows (R67, C6). -/
def Obligations.WireBytesAndCommandsAgree : Prop :=
  (∀ (iset : InstrSet) (i : Instr) (b : Byte),
      decodeWire iset b = some i ↔ i.wf = true ∧ i.inSet iset = true ∧ encode i = [b])
    ∧ ∀ iset : InstrSet, (wireRows iset).Pairwise fun p q => ∀ b : Byte, (p.covers b && q.covers b) = false

/-- Forming a command byte never touches a base bit and equals an addition, for every field value FBR forms (R80). -/
def Obligations.CommandByteIsBasePlusField : Prop :=
  (∀ x : Byte, x.toNat ≤ 83 → (xAddressByte x).toNat = 0x80 + x.toNat)
    ∧ (∀ y : Byte, y.toNat ≤ 47 → (yAddressByte y).toNat = 0x40 + y.toNat)
    ∧ (∀ v : Byte, v.toNat ≤ 127 → (vopByte v).toNat = 0x80 + v.toNat)
    ∧ (∀ m : Byte, isMode m = true → (displayControlByte m).toNat = 0x08 + m.toNat)
    ∧ (∀ b : Byte, b.toNat ≤ 7 → (biasByte b).toNat = 0x10 + b.toNat)
    ∧ (∀ h : InstrSet, (functionSetByte h).toNat = 0x20 + h.bits.toNat)
    ∧ (temperatureByte 0).toNat = 0x04

/-! ### The step -/

/-- When the bytes at `cp` decode to an operation, the step is that operation, then `cp` past its packet (R60). -/
def Obligations.StepRunsTheDecodedOperation : Prop :=
  ∀ (s : State) (i : Instr) (rest : List Byte), s.cp < s.cmd.length →
    decode (s.cmd.drop s.cp) = .ok (i, rest) →
      (∀ t : State, exec i s = .next t → step s = .next { t with cp := t.cp + packetLength i })
        ∧ (∀ f : Fault, exec i s = .fault f → step s = .fault f)
        ∧ (∀ r : Refusal, exec i s = .refused r → step s = .refused r)

/-- A reserved opcode byte and a truncated packet are refused, and nothing else is refused by the fetch: a whole packet with
any other opcode byte is fetched (R65). -/
def Obligations.ReservedAndTruncatedPacketsAreRefused : Prop :=
  ∀ (s : State) (op : Byte) (rest : List Byte), s.cp < s.cmd.length → s.cmd.drop s.cp = op :: rest →
    ((op.toNat = 0x00 ∨ op.toNat = 0x06 ∨ op.toNat = 0x07 ∨ (0x0B ≤ op.toNat ∧ op.toNat ≤ 0x0F) ∨ op.toNat = 0x11 ∨
        (0x18 ≤ op.toNat ∧ op.toNat ≤ 0x1F) ∨ 0x23 ≤ op.toNat) ↔ fetch s = .error (.reservedOpcode op))
      ∧ ((formatOf op ≠ none ∧ ∀ n : Nat, packetSpan (op :: rest) = some n → (op :: rest).length < n) ↔
          fetch s = .error .truncatedPacket)
      ∧ (formatOf op ≠ none → (∃ n : Nat, packetSpan (op :: rest) = some n ∧ n ≤ (op :: rest).length) →
          ∃ i : Instr, fetch s = .ok i)
      ∧ ∀ r : Refusal, fetch s = .error r → step s = .refused r

/-- At the end of the stream the run is over and the state stays as it is: the lines keep their last levels (R73). That the
step answers this same state is the model's reading (log entry 3). -/
def Obligations.FinishedRunStaysAsItIs : Prop := ∀ s : State, Finished s → step s = .next s

/-- The pointer moves by the length of the packet and by nothing else, no operation sets it to anything else or writes the
stream, and the whole packet was there (R22, R53, R63). -/
def Obligations.StepAdvancesThePointerByThePacket : Prop :=
  ∀ s t : State, step s = .next t → s.cp ≠ s.cmd.length →
    t.cmd = s.cmd ∧ ∃ n : Nat, packetSpan (s.cmd.drop s.cp) = some n ∧ t.cp = s.cp + n ∧ t.cp ≤ s.cmd.length

/-- Each step is decided by the packet at `cp`: a longer stream is a different run with the shorter one as its prefix (R73). -/
def Obligations.LongerStreamRunsTheSamePrefix : Prop :=
  ∀ (s t : State) (more : List Byte), s.cp < s.cmd.length → step s = .next t →
    step { s with cmd := s.cmd ++ more } = .next { t with cmd := t.cmd ++ more }

/-! ### Controller protocol -/

/-- SENDCMD, packet `01 byte`, sends its byte, unexamined, in one command frame, and changes nothing else (R83). -/
def Obligations.SendcmdSendsOneCommandFrame : Prop :=
  ∀ (byte : Byte) (s : State),
    encode (.sendcmd byte) = [0x01, byte]
      ∧ (s.busCfg = true → s.transport.accepts 1 = true →
          exec (.sendcmd byte) s =
            .next { s with dc := some .low, ce := some .high,
                           trace := s.trace ++ [.dc .low, .ce .low, .tx byte, .ce .high],
                           transport := s.transport.after 1 })

/-- SENDDAT, packet `02`, two length bytes, payload, sends its `len` payload bytes in one data frame, in ascending order, an
empty frame for `len = 0`, and changes nothing else (R84). -/
def Obligations.SenddatSendsOneDataFrame : Prop :=
  ∀ (len : BitVec 16) (payload : List Byte) (s : State), payload.length = len.toNat →
    encode (.senddat len payload) = [0x02, BitVec.ofNat 8 len.toNat, BitVec.ofNat 8 (len.toNat / 256)] ++ payload
      ∧ (s.busCfg = true → s.transport.accepts len.toNat = true →
          exec (.senddat len payload) s =
            .next { s with dc := some .high, ce := some .high,
                           trace := s.trace ++ ([.dc .high, .ce .low] ++ payload.map .tx ++ [.ce .high]),
                           transport := s.transport.after len.toNat })

/-- SETMODE, packet `03 mode`, sends one display-control command for the four valid modes, whose bytes are 0x08, 0x0C, 0x09,
0x0D, and does nothing at all for any other value, before INIT as after it (R85). -/
def Obligations.SetmodeSendsAValidModeAndIgnoresOthers : Prop :=
  ∀ (mode : Byte) (s : State),
    encode (.setmode mode) = [0x03, mode]
      ∧ ((mode = 0x00 ∨ mode = 0x04 ∨ mode = 0x01 ∨ mode = 0x05) → s.busCfg = true → s.transport.accepts 1 = true →
        exec (.setmode mode) s =
          .next { s with dc := some .low, ce := some .high,
                         trace := s.trace ++ [.dc .low, .ce .low, .tx (0x08 ||| mode), .ce .high],
                         transport := s.transport.after 1 })
      ∧ (¬(mode = 0x00 ∨ mode = 0x04 ∨ mode = 0x01 ∨ mode = 0x05) → exec (.setmode mode) s = .next s)

/-- SETCON, packet `04 value`, sends the Vop byte of its value clamped to 127, between function-set commands exactly if `SETCON_BRACKET`, and
changes nothing else (R86). -/
def Obligations.SetconSendsTheClampedContrast : Prop :=
  ∀ (value : Byte) (s : State),
    encode (.setcon value) = [0x04, value]
      ∧ (s.busCfg = true → s.transport.accepts (bytesSent (.setcon value)) = true →
          exec (.setcon value) s =
            .next (if Config.setconBracket then
              afterFrame .low [0x20]
                (afterFrame .low [0x80 ||| (if value.toNat ≤ 127 then value else 127)] (afterFrame .low [0x21] s))
            else afterFrame .low [0x80 ||| (if value.toNat ≤ 127 then value else 127)] s))
      ∧ (127 < value.toNat → exec (.setcon value) s = exec (.setcon 127) s)

/-- SETCUR, packet `05 x y`, in range sends X-address-set, then Y-address-set carrying `y` itself, and out of range nothing, before INIT as
after it (R87). -/
def Obligations.SetcurSendsBothAddressesOrNothing : Prop :=
  ∀ (x y : Byte) (s : State),
    encode (.setcur x y) = [0x05, x, y]
      ∧ ((x.toNat < 84 ∧ y.toNat < 48) → s.busCfg = true → s.transport.accepts 2 = true →
        exec (.setcur x y) s =
          .next { s with dc := some .low, ce := some .high,
                         trace := s.trace ++ [.dc .low, .ce .low, .tx (0x80 ||| x), .ce .high,
                                              .dc .low, .ce .low, .tx (0x40 ||| y), .ce .high],
                         transport := s.transport.after 2 })
      ∧ (84 ≤ x.toNat ∨ 48 ≤ y.toNat → exec (.setcur x y) s = .next s)

/-- Each of the seven controller commands is sent as exactly one byte, `base | field`, in a command frame of its own, and
changes nothing else in FBR (R67). That a command is an instruction of its own is the model's choice (log entry 6). -/
def Obligations.ControllerCommandsSendTheirByte : Prop :=
  ∀ s : State, s.busCfg = true → s.transport.accepts 1 = true →
    (∀ h : InstrSet, exec (.functionSet h) s = .next (afterFrame .low [if h = .basic then 0x20 else 0x21] s))
      ∧ exec (.displayControl .blank) s = .next (afterFrame .low [0x08] s)
      ∧ exec (.displayControl .normal) s = .next (afterFrame .low [0x0C] s)
      ∧ exec (.displayControl .allOn) s = .next (afterFrame .low [0x09] s)
      ∧ exec (.displayControl .inverted) s = .next (afterFrame .low [0x0D] s)
      ∧ (∀ x : BitVec 7, exec (.xAddressSet x) s = .next (afterFrame .low [BitVec.ofNat 8 (0x80 + x.toNat)] s))
      ∧ (∀ y : BitVec 6, exec (.yAddressSet y) s = .next (afterFrame .low [BitVec.ofNat 8 (0x40 + y.toNat)] s))
      ∧ (∀ v : BitVec 7, exec (.vopSet v) s = .next (afterFrame .low [BitVec.ofNat 8 (0x80 + v.toNat)] s))
      ∧ (∀ t : BitVec 2, exec (.temperatureControl t) s = .next (afterFrame .low [BitVec.ofNat 8 (0x04 + t.toNat)] s))
      ∧ (∀ b : BitVec 3, exec (.biasSystem b) s = .next (afterFrame .low [BitVec.ofNat 8 (0x10 + b.toNat)] s))

/-- A host can send any controller command itself: SENDCMD with its byte does what the command does (R83, R67; log entry 6). -/
def Obligations.SendcmdCarriesAnyControllerCommand : Prop :=
  ∀ (i : Instr) (b : Byte) (s : State), i.isHost = false → encode i = [b] → exec (.sendcmd b) s = exec i s

/-- Before INIT, every operation that sends a frame is refused, and an operation that sends nothing is not (R89, R182). -/
def Obligations.FrameBeforeInitIsRefused : Prop :=
  ∀ (i : Instr) (s : State), s.busCfg = false →
    (sendsFrame i = true → exec i s = .refused .busNotConfigured)
      ∧ ((∃ m : Byte, i = .setmode m ∧ isMode m = false) ∨
          (∃ x y : Byte, i = .setcur x y ∧ (84 ≤ x.toNat ∨ 48 ≤ y.toNat)) → exec i s = .next s)

/-- A transfer the transport never completes leaves FBR stuck inside the operation: chip enable low, the bytes before it
sent, no later event, `cp` not advanced. First SENDDAT and SENDCMD, whose stuck state is written out; then every operation
that sends a frame, the controller commands, SETMODE, SETCON, SETCUR, UPDATE, CLRSCR and INIT among them, at every byte it
can stall at: its trace is that of the same operation with a live transport, cut just before the byte never sent (R166). The
transport as a field and the stuck state's content are the model's (log entries 4 and 5). -/
def Obligations.StalledTransferSticksInsideTheFrame : Prop :=
  ∀ (s : State) (k : Nat), s.transport = .stallsAfter k →
    (s.busCfg = true → ∀ (len : BitVec 16) (payload : List Byte), payload.length = len.toNat → k < len.toNat →
        exec (.senddat len payload) s =
          .fault (.transferNeverCompletes
            { s with dc := some .high, ce := some .low,
                     trace := s.trace ++ ([.dc .high, .ce .low] ++ (payload.take k).map .tx),
                     transport := .stallsAfter 0 }))
      ∧ (s.busCfg = true → ∀ byte : Byte, k = 0 →
          exec (.sendcmd byte) s =
            .fault (.transferNeverCompletes
              { s with dc := some .low, ce := some .low, trace := s.trace ++ [.dc .low, .ce .low] }))
      ∧ ∀ i : Instr, (s.busCfg = true ∨ i = .init) → k < bytesSent i →
          ∃ (stuck finished : State) (unsent : Byte) (later : List Event),
            exec i s = .fault (.transferNeverCompletes stuck)
              ∧ stuck.ce = some .low ∧ stuck.cp = s.cp ∧ stuck.cmd = s.cmd ∧ stuck.hostOut = s.hostOut
              ∧ (i ≠ .init → stuck.fb = s.fb ∧ stuck.rst = s.rst ∧ stuck.busCfg = s.busCfg)
              ∧ s.trace <+: stuck.trace ∧ (sentBytes stuck.trace).length = (sentBytes s.trace).length + k
              ∧ exec i { s with transport := .live } = .next finished
              ∧ finished.trace = stuck.trace ++ .tx unsent :: later

/-! ### Framebuffer -/

/-- CLRBUF, packet `08`, completes in every state with a canonical framebuffer and leaves every byte 0x00, whatever it was, and everything
else as it was (R100, R103). -/
def Obligations.ClrbufZeroesEveryByte : Prop :=
  ∀ s : State, s.fb.wf = true →
    encode .clrbuf = [0x08] ∧ ∃ m : Memory, exec .clrbuf s = .next { s with fb := m } ∧ m.wf = true ∧ ∀ i : Nat, i < 504 → m.read i = 0x00

/-- PIXEL, packet `09 x y`, in range ORs one bit into one byte and leaves every other byte, and everything else, as it was; out of range it
is a no-op (R105). -/
def Obligations.PixelSetsItsBitAndNothingElse : Prop :=
  ∀ (x y : Byte) (s : State), s.fb.wf = true →
    encode (.pixel x y) = [0x09, x, y]
      ∧ (x.toNat < 84 ∧ y.toNat < 48 →
        ∃ m : Memory, exec (.pixel x y) s = .next { s with fb := m }
          ∧ m.read (x.toNat + y.toNat / 8 * 84) = s.fb.read (x.toNat + y.toNat / 8 * 84) ||| ((1 : Byte) <<< (y.toNat % 8))
          ∧ ∀ j : Nat, j ≠ x.toNat + y.toNat / 8 * 84 → m.read j = s.fb.read j)
      ∧ (84 ≤ x.toNat ∨ 48 ≤ y.toNat → exec (.pixel x y) s = .next s)

/-- RDBUF, packet `0A`, appends the 504 bytes of the framebuffer, in ascending index order, to the host read channel and changes nothing
else (R104). -/
def Obligations.RdbufDeliversTheWholeBuffer : Prop :=
  encode .rdbuf = [0x0A] ∧ ∀ s : State, ∃ bytes : List Byte, exec .rdbuf s = .next { s with hostOut := s.hostOut ++ bytes }
    ∧ bytes.length = 504 ∧ ∀ i : Nat, i < 504 → bytes[i]? = some (s.fb.read i)

/-- The pixels of the surface correspond one to one to the bits of the framebuffer (R42). -/
def Obligations.PixelsAndBitsCorrespond : Prop :=
  (∀ x y : Nat, x < 84 → y < 48 →
      byteIndex x y < 504 ∧ bitIndex y < 8 ∧ byteIndex x y % 84 = x ∧ 8 * (byteIndex x y / 84) + bitIndex y = y)
    ∧ (∀ i b : Nat, i < 504 → b < 8 →
        i % 84 < 84 ∧ 8 * (i / 84) + b < 48 ∧ byteIndex (i % 84) (8 * (i / 84) + b) = i ∧
          bitIndex (8 * (i / 84) + b) = b)

/-! ### Rasterizer -/

/-- Every drawing operation (PIXEL, LINE, RECT, RECTF, TRI, TRIF, CIRC, CIRCF) completes in every state with a canonical
framebuffer, INIT or no INIT, changes nothing but the framebuffer, and leaves exactly the pixels that were set or that it
plotted: no bit is ever cleared (R46, R110, R183). -/
def Obligations.DrawingSetsExactlyThePlottedPixels : Prop :=
  ∀ (i : Instr) (s : State), isDrawing i = true → s.fb.wf = true →
    ∃ m : Memory, exec i s = .next { s with fb := m } ∧ m.wf = true
      ∧ ∀ x y : Nat, x < 84 → y < 48 →
          pixelAt m x y = (pixelAt s.fb x y || decide (((x : Int), (y : Int)) ∈ plottedPoints i))

/-- Every byte of the framebuffer in which no plotted point of the surface lies reads after a drawing operation as it read
before (R45, R47). -/
def Obligations.DrawingLeavesOtherBytesAlone : Prop :=
  ∀ (i : Instr) (s t : State), isDrawing i = true → s.fb.wf = true → exec i s = .next t →
    ∀ a : Nat, (∀ p ∈ plottedPoints i, onSurface p = true → byteIndex p.1.toNat p.2.toNat ≠ a) →
      t.fb.read a = s.fb.read a

/-- The order in which points are plotted, and how often, cannot be seen in the result (R46). -/
def Obligations.PlotOrderCannotBeSeen : Prop :=
  ∀ (ps qs : List Point) (m : Memory), m.wf = true → (∀ p : Point, p ∈ ps ↔ p ∈ qs) → plotAll ps m = plotAll qs m

/-- A line terminates after exactly `max(dx, dy) + 1` plots, begins at its first end point, ends at its second, and stays in
their bounding box (R113 (a)). So the model's bound on the turns cuts nothing off (log entry 23). -/
def Obligations.LinePlotsFromEndToEnd : Prop :=
  ∀ xa ya xb yb : Int,
    (linePoints xa ya xb yb).length = max (xb - xa).natAbs (yb - ya).natAbs + 1
      ∧ (linePoints xa ya xb yb).head? = some (xa, ya)
      ∧ (linePoints xa ya xb yb).getLast? = some (xb, yb)
      ∧ ∀ p ∈ linePoints xa ya xb yb,
          min xa xb ≤ p.1 ∧ p.1 ≤ max xa xb ∧ min ya yb ≤ p.2 ∧ p.2 ≤ max ya yb

/-- Along the longer axis a line moves one unit a plot, and across it stays at the grid point nearest to the true line, the
one nearer to the start where two are as near: this fixes every point of every line (R111). -/
def Obligations.LineTakesTheNearestGridPoints : Prop :=
  ∀ (xa ya xb yb : Int) (k : Nat) (p : Point), (linePoints xa ya xb yb)[k]? = some p →
    (|yb - ya| ≤ |xb - xa| → xa ≠ xb →
        p.1 = xa + (if xa < xb then 1 else -1) * (k : Int) ∧
          ∃ j : Nat, p.2 = ya + (if ya < yb then 1 else -1) * (j : Int) ∧
            -|xb - xa| ≤ 2 * (|xb - xa| * j - |yb - ya| * k) ∧ 2 * (|xb - xa| * j - |yb - ya| * k) < |xb - xa|)
      ∧ (|xb - xa| ≤ |yb - ya| → ya ≠ yb →
        p.2 = ya + (if ya < yb then 1 else -1) * (k : Int) ∧
          ∃ j : Nat, p.1 = xa + (if xa < xb then 1 else -1) * (j : Int) ∧
            -|yb - ya| ≤ 2 * (|yb - ya| * j - |xb - xa| * k) ∧ 2 * (|yb - ya| * j - |xb - xa| * k) < |yb - ya|)

/-- A horizontal line plots every point between its ends and nothing else, a vertical line likewise (R113 (c)). -/
def Obligations.StraightLinesPlotEveryPointBetween : Prop :=
  ∀ (a b c : Int) (p : Point),
    (p ∈ linePoints a c b c ↔ p.2 = c ∧ min a b ≤ p.1 ∧ p.1 ≤ max a b)
      ∧ (p ∈ linePoints c a c b ↔ p.1 = c ∧ min a b ≤ p.2 ∧ p.2 ≤ max a b)

/-- Moving both end points by one vector moves the plotted points by it (R113 (e)). -/
def Obligations.LineMovesWithItsEndPoints : Prop :=
  ∀ xa ya xb yb u v : Int,
    linePoints (xa + u) (ya + v) (xb + u) (yb + v) = (linePoints xa ya xb yb).map fun p => (p.1 + u, p.2 + v)

/-- RECT, packet `12 x y width height`, draws the outline between the corner and the far edges `x+width-1` and `y+height-1`, taken literally for every size,
clipped to the surface, if the corner is on it; otherwise it is a no-op (R114, with the check and the edges of R116). -/
def Obligations.RectDrawsItsOutline : Prop :=
  ∀ (x y width height : Byte) (s : State), s.fb.wf = true →
    encode (.rect x y width height) = [0x12, x, y, width, height]
      ∧ (84 ≤ x.toNat ∨ 48 ≤ y.toNat → exec (.rect x y width height) s = .next s)
      ∧ (x.toNat < 84 ∧ y.toNat < 48 →
          ∃ m : Memory, exec (.rect x y width height) s = .next { s with fb := m }
            ∧ ∀ px py : Nat, px < 84 → py < 48 →
                (pixelAt m px py = true ↔
                  pixelAt s.fb px py = true
                    ∨ (((py : Int) = y.toNat ∨ (py : Int) = (y.toNat : Int) + height.toNat - 1) ∧
                        min (x.toNat : Int) ((x.toNat : Int) + width.toNat - 1) ≤ px ∧
                        px ≤ max (x.toNat : Int) ((x.toNat : Int) + width.toNat - 1))
                    ∨ (((px : Int) = x.toNat ∨ (px : Int) = (x.toNat : Int) + width.toNat - 1) ∧
                        min (y.toNat : Int) ((y.toNat : Int) + height.toNat - 1) ≤ py ∧
                        py ≤ max (y.toNat : Int) ((y.toNat : Int) + height.toNat - 1))))

/-- RECTF, packet `13 x y width height`, fills `height` rows from `y`, each from `x` to `x+width-1` taken literally, clipped to the surface, if the corner
is on it; otherwise it is a no-op (R115, with the check and the edge of R116). -/
def Obligations.RectfFillsItsRows : Prop :=
  ∀ (x y width height : Byte) (s : State), s.fb.wf = true →
    encode (.rectf x y width height) = [0x13, x, y, width, height]
      ∧ (84 ≤ x.toNat ∨ 48 ≤ y.toNat → exec (.rectf x y width height) s = .next s)
      ∧ (x.toNat < 84 ∧ y.toNat < 48 →
          ∃ m : Memory, exec (.rectf x y width height) s = .next { s with fb := m }
            ∧ ∀ px py : Nat, px < 84 → py < 48 →
                (pixelAt m px py = true ↔
                  pixelAt s.fb px py = true
                    ∨ (y.toNat ≤ py ∧ py < y.toNat + height.toNat ∧
                        min (x.toNat : Int) ((x.toNat : Int) + width.toNat - 1) ≤ px ∧
                        px ≤ max (x.toNat : Int) ((x.toNat : Int) + width.toNat - 1))))

/-- TRI, packet `14` and the six coordinates, draws the three edges P0-P1, P1-P2 and P2-P0, each from the first to the second (R131). -/
def Obligations.TriDrawsItsThreeEdges : Prop :=
  ∀ (x0 y0 x1 y1 x2 y2 : Byte) (s : State), s.fb.wf = true →
    encode (.tri x0 y0 x1 y1 x2 y2) = [0x14, x0, y0, x1, y1, x2, y2] ∧ ∃ m : Memory, exec (.tri x0 y0 x1 y1 x2 y2) s = .next { s with fb := m }
      ∧ ∀ x y : Nat, x < 84 → y < 48 →
          (pixelAt m x y = true ↔
            pixelAt s.fb x y = true
              ∨ ((x : Int), (y : Int)) ∈ linePoints x0.toNat y0.toNat x1.toNat y1.toNat
              ∨ ((x : Int), (y : Int)) ∈ linePoints x1.toNat y1.toNat x2.toNat y2.toNat
              ∨ ((x : Int), (y : Int)) ∈ linePoints x2.toNat y2.toNat x0.toNat y0.toNat)

/-- TRIF, packet `15` and the six coordinates, draws, on every scanline from the smallest to the largest vertex row, exactly the pixels of the surface between the
two ends its `TriSpan` gives, whatever `TriSpan` is (R132). -/
def Obligations.TrifFillsOneSpanPerScanline : Prop :=
  ∀ (x0 y0 x1 y1 x2 y2 : Byte) (s : State), s.fb.wf = true →
    encode (.trif x0 y0 x1 y1 x2 y2) = [0x15, x0, y0, x1, y1, x2, y2] ∧ ∃ m : Memory, exec (.trif x0 y0 x1 y1 x2 y2) s = .next { s with fb := m }
      ∧ ∀ x y : Nat, x < 84 → y < 48 →
          (pixelAt m x y = true ↔
            pixelAt s.fb x y = true
              ∨ (min y0.toNat (min y1.toNat y2.toNat) ≤ y ∧ y ≤ max y0.toNat (max y1.toNat y2.toNat) ∧
                  min (Config.triSpan x0.toNat y0.toNat x1.toNat y1.toNat x2.toNat y2.toNat y).1
                      (Config.triSpan x0.toNat y0.toNat x1.toNat y1.toNat x2.toNat y2.toNat y).2 ≤ (x : Int) ∧
                  (x : Int) ≤ max (Config.triSpan x0.toNat y0.toNat x1.toNat y1.toNat x2.toNat y2.toNat y).1
                      (Config.triSpan x0.toNat y0.toNat x1.toNat y1.toNat x2.toNat y2.toNat y).2))

/-- `Interp` meets both ends of its edge, does not divide on a horizontal one, and `tdiv` is the quotient rounded toward
zero (R11, R133). -/
def Obligations.InterpolationMeetsTheEdgeEnds : Prop :=
  (∀ xa ya xb yb : Int, interp xa ya xb yb ya = xa ∧ (ya ≠ yb → interp xa ya xb yb yb = xb))
    ∧ (∀ xa ya xb y : Int, interp xa ya xb ya y = xa)
    ∧ ∀ a b : Int, b ≠ 0 → |a - b * tdiv a b| < |b| ∧ |b * tdiv a b| ≤ |a| ∧ 0 ≤ a * (b * tdiv a b)

/-- The circle loop ends by itself, however many turns it is given beyond `radius`, and at every plot
`1 <= x <= y + 1` and `0 <= y <= r` (R144 (a), (b)). So the model's bound on the turns cuts nothing off (log entry 23). -/
def Obligations.CircleLoopEndsWithinItsBounds : Prop :=
  ∀ r : Byte,
    (∀ extra : Nat, circleTurns (r.toNat + extra) (circleStart r.toNat) = circleLoop r)
      ∧ ∀ c ∈ circleLoop r, 1 ≤ c.x ∧ c.x ≤ c.y + 1 ∧ 0 ≤ c.y ∧ c.y ≤ r.toNat

/-- The decision variable of the circle keeps its meaning: `f = (x+1)^2 + y^2 - y - r^2`, `ddF_x = 2x + 1`, `ddF_y = -2y`
after every turn (R141, D12). -/
def Obligations.CircleDecisionVariableKeepsItsMeaning : Prop :=
  ∀ r : Byte, ∀ c ∈ circleLoop r,
    c.f = (c.x + 1) * (c.x + 1) + c.y * c.y - c.y - (r.toNat : Int) * r.toNat ∧ c.ddFx = 2 * c.x + 1 ∧ c.ddFy = -2 * c.y

/-- CIRC sets exactly the four axis points and the eight-fold images of the pairs the loop visits, clipped to the surface
(R142). -/
def Obligations.CircDrawsTheEightFoldImages : Prop :=
  ∀ (x0 y0 radius : Byte) (s : State), s.fb.wf = true →
    ∃ m : Memory, exec (.circ x0 y0 radius) s = .next { s with fb := m }
      ∧ ∀ x y : Nat, x < 84 → y < 48 →
          (pixelAt m x y = true ↔
            pixelAt s.fb x y = true
              ∨ (|(x : Int) - x0.toNat| = radius.toNat ∧ (y : Int) = y0.toNat)
              ∨ ((x : Int) = x0.toNat ∧ |(y : Int) - y0.toNat| = radius.toNat)
              ∨ ∃ c ∈ circleLoop radius,
                  (|(x : Int) - x0.toNat| = c.x ∧ |(y : Int) - y0.toNat| = c.y)
                    ∨ (|(x : Int) - x0.toNat| = c.y ∧ |(y : Int) - y0.toNat| = c.x))

/-- CIRCF sets exactly the four axis points, the spans joining the octant pairs of each row, and the final diameter, clipped
to the surface (R143). -/
def Obligations.CircfDrawsTheSpansAndTheDiameter : Prop :=
  ∀ (x0 y0 radius : Byte) (s : State), s.fb.wf = true →
    ∃ m : Memory, exec (.circf x0 y0 radius) s = .next { s with fb := m }
      ∧ ∀ x y : Nat, x < 84 → y < 48 →
          (pixelAt m x y = true ↔
            pixelAt s.fb x y = true
              ∨ ((y : Int) = y0.toNat ∧ |(x : Int) - x0.toNat| ≤ radius.toNat)
              ∨ ((x : Int) = x0.toNat ∧ |(y : Int) - y0.toNat| = radius.toNat)
              ∨ ∃ c ∈ circleLoop radius,
                  (|(y : Int) - y0.toNat| = c.y ∧ |(x : Int) - x0.toNat| ≤ c.x)
                    ∨ (|(y : Int) - y0.toNat| = c.x ∧ |(x : Int) - x0.toNat| ≤ c.y))

/-- The point set of CIRC is symmetric in the column and in the row of its centre, before clipping (R142). -/
def Obligations.CircleIsSymmetricAboutItsCentre : Prop :=
  ∀ (x0 y0 radius : Byte) (x y : Int),
    ((x, y) ∈ circPoints x0 y0 radius ↔ (2 * (x0.toNat : Int) - x, y) ∈ circPoints x0 y0 radius)
      ∧ ((x, y) ∈ circPoints x0 y0 radius ↔ (x, 2 * (y0.toNat : Int) - y) ∈ circPoints x0 y0 radius)

/-- The disc of CIRCF contains every point of the CIRC outline with the same operands (R144 (e)). -/
def Obligations.DiscContainsItsOutline : Prop :=
  ∀ (x0 y0 radius : Byte) (p : Point), p ∈ circPoints x0 y0 radius → p ∈ circfPoints x0 y0 radius

/-! ### Display session -/

/-- INIT, packet `20`, completes whenever the transport completes its 510 bytes, configured or not: the reset pulse, the bus configuration,
the six bring-up commands in order, the framebuffer cleared, 504 data frames of one zero byte; nothing else changes (R151). -/
def Obligations.InitBringsUpAndClears : Prop :=
  ∀ s : State, s.fb.wf = true → s.transport.accepts 510 = true →
    encode .init = [0x20] ∧ ∃ m : Memory, (∀ i : Nat, i < 504 → m.read i = 0x00) ∧
      exec .init s =
        .next { s with fb := m, rst := some .high, ce := some .high, dc := some .high, busCfg := true,
                       trace := s.trace
                         ++ [.rst .low, .wait1us, .rst .high, .busCfg 4000000 .msbFirst Config.cpol Config.cpha]
                         ++ frameEvents .low [0x21] ++ frameEvents .low [0x80 ||| Config.vopInit.setWidth 8]
                         ++ frameEvents .low [0x04] ++ frameEvents .low [0x10 ||| Config.biasInit.setWidth 8]
                         ++ frameEvents .low [0x20] ++ frameEvents .low [0x0C]
                         ++ (List.replicate 504 (frameEvents .high [0x00])).flatten,
                       transport := s.transport.after 510 }

/-- UPDATE, packet `21`, homes the cursor, X before Y, then sends all 504 bytes of the framebuffer in one data frame in ascending index
order; the framebuffer and everything else stay as they were (R152). -/
def Obligations.UpdateSendsTheWholeBuffer : Prop :=
  ∀ s : State, s.busCfg = true → s.transport.accepts 506 = true →
    encode .update = [0x21] ∧ ∃ bytes : List Byte, bytes.length = 504 ∧ (∀ i : Nat, i < 504 → bytes[i]? = some (s.fb.read i)) ∧
      exec .update s =
        .next { s with dc := some .high, ce := some .high,
                       trace := s.trace ++ frameEvents .low [0x80] ++ frameEvents .low [0x40] ++ frameEvents .high bytes,
                       transport := s.transport.after 506 }

/-- CLRSCR, packet `22`, sends 504 data frames of one zero byte and no cursor command, and changes nothing else: the framebuffer keeps its
drawing (R153). -/
def Obligations.ClrscrSendsZeroFrames : Prop :=
  ∀ s : State, s.busCfg = true → s.transport.accepts 504 = true →
    encode .clrscr = [0x22] ∧ exec .clrscr s =
      .next { s with dc := some .high, ce := some .high,
                     trace := s.trace ++ (List.replicate 504 [.dc .high, .ce .low, .tx 0x00, .ce .high]).flatten,
                     transport := s.transport.after 504 }

/-- UPDATE does what SETCUR 0, 0 and a SENDDAT of the framebuffer do; CLRSCR what 504 SENDDATs of one zero byte do; in every
state and with every transport, stops included (R155). -/
def Obligations.UpdateAndClrscrEqualTheirParts : Prop :=
  ∀ s : State,
    exec .update s = thenDo (exec (.setcur 0 0) s) (fun t => exec (.senddat 504 s.fb.bytes) t)
      ∧ exec .clrscr s =
          (List.replicate 504 (Instr.senddat 1 [0x00])).foldl (fun r i => thenDo r (fun t => exec i t)) (.next s)

/-- After its first four events INIT does what its packets do one after another, in every state and with every transport,
stops included (R156). -/
def Obligations.InitEqualsItsParts : Prop :=
  ∀ s : State,
    exec .init s =
      [Instr.sendcmd 0x21, .sendcmd (0x80 ||| Config.vopInit.setWidth 8), .sendcmd 0x04,
        .sendcmd (0x10 ||| Config.biasInit.setWidth 8), .sendcmd 0x20, .setmode 0x04, .clrbuf, .clrscr].foldl
          (fun r i => thenDo r (fun t => exec i t))
          (.next { s with rst := some .high, busCfg := true,
                          trace := s.trace ++ [.rst .low, .wait1us, .rst .high,
                            .busCfg 4000000 .msbFirst Config.cpol Config.cpha] })

/-- Round trip: after UPDATE the last three frames the peer has seen are the two address commands and one data frame of the
504 bytes of the framebuffer, and bit `y mod 8` of its byte `x + (y div 8) * 84` is pixel `(x, y)` (R152, T10). Frames as
log entry 25 reads them. -/
def Obligations.UpdateFrameCarriesThePixels : Prop :=
  ∀ s t : State, Inv s → exec .update s = .next t →
    ∃ bytes : List Byte,
      frames t.trace = frames s.trace ++ [commandFrame 0x80, commandFrame 0x40, dataFrame bytes]
        ∧ bytes.length = 504
        ∧ ∀ x y : Nat, x < 84 → y < 48 →
            (bytes[x + y / 8 * 84]?).map (fun b => b.getLsbD (y % 8)) = some (pixelAt s.fb x y)

/-- After INIT the last function-set command sent selects the basic instruction set (R191; frames as log entry 25 reads them). -/
def Obligations.InitLeavesThePeerInTheBasicSet : Prop :=
  ∀ (s t : State) (before : Option InstrSet), Inv s → exec .init s = .next t →
    selectedSet (frames t.trace) before = some .basic

/-! ### Rules of the whole machine -/

/-- What writes what (R20, R26, R90, R110): only INIT writes the reset line and `BUSCFG`; only CLRBUF, INIT and the drawing
operations write the framebuffer; only RDBUF writes the host read channel; only an operation that sends a frame, or INIT,
writes chip enable, command/data select or the trace; none writes `cp` or the stream. -/
def Obligations.EachRegisterHasItsWriters : Prop :=
  ∀ (i : Instr) (s t : State), exec i s = .next t →
    (i ≠ .init → t.rst = s.rst ∧ t.busCfg = s.busCfg)
      ∧ (i ≠ .init → i ≠ .clrbuf → isDrawing i = false → t.fb = s.fb)
      ∧ (i ≠ .rdbuf → t.hostOut = s.hostOut)
      ∧ (i ≠ .init → sendsFrame i = false → t.ce = s.ce ∧ t.dc = s.dc ∧ t.trace = s.trace ∧ t.transport = s.transport)
      ∧ t.cp = s.cp ∧ t.cmd = s.cmd

/-- A step never takes back an event or a byte it has output: both histories only grow (R20, R49). -/
def Obligations.OutputHistoriesOnlyGrow : Prop :=
  ∀ s t : State, step s = .next t → s.trace <+: t.trace ∧ s.hostOut <+: t.hostOut

/-- No operation raises anything (R160, R182, R183): each completes in every state in which the bus is configured, or is not
needed because no frame is sent or INIT configures it, as soon as the transport completes the bytes it sends; and those that
need no INIT complete in every state whatever. -/
def Obligations.EveryOperationCompletes : Prop :=
  ∀ (i : Instr) (s : State),
    ((s.busCfg = true ∨ sendsFrame i = false) → s.transport.accepts (bytesSent i) = true →
        ∃ t : State, exec i s = .next t ∧ t.transport = s.transport.after (bytesSent i))
      ∧ (needsNoInit i = true → ∃ t : State, exec i s = .next t)

/-- With a live transport every program of well-formed operations runs to its end, one step an operation, if the bus is
configured or the program begins with INIT (R8 `TRANSPORT_LIVE`, R71, R73, R184). -/
def Obligations.ProgramRunsToItsEnd : Prop :=
  ∀ (is : List Instr) (s : State), (∀ i ∈ is, i.isHost = true ∧ i.wf = true) → TransportLive s → s.cp = 0 →
    s.cmd = encodeAll is → (s.busCfg = true ∨ is.head? = some .init) →
      ∃ t : State, Sys2Proof.core.run is.length s = .next t ∧ Finished t

/-- INIT and CLRBUF forget the framebuffer: from two states that differ in nothing else they lead to the same state, so
anything drawn before INIT is lost by it (R183). -/
def Obligations.ClearingForgetsTheFramebuffer : Prop :=
  ∀ (s t : State) (m : Memory), s.fb.wf = true → m.wf = true →
    (exec .init s = .next t → exec .init { s with fb := m } = .next t)
      ∧ (exec .clrbuf s = .next t → exec .clrbuf { s with fb := m } = .next t)

/-- The controller protocol neither reads nor writes the framebuffer and the host read channel (R90): with other contents
it does the same, and leaves them there. -/
def Obligations.ProtocolIgnoresTheFramebuffer : Prop :=
  ∀ (i : Instr) (s t : State) (m : Memory) (h : List Byte),
    sendsFrame i = true → i ≠ .update → exec i s = .next t →
      exec i { s with fb := m, hostOut := h } = .next { t with fb := m, hostOut := h }

/-- The bits of a byte leave most-significant first, so the bottom pixel of a column segment leaves first (R43, R172). -/
def Obligations.BytesLeaveMostSignificantBitFirst : Prop :=
  (∀ b : Byte, serialBits b =
      [b.getLsbD 7, b.getLsbD 6, b.getLsbD 5, b.getLsbD 4, b.getLsbD 3, b.getLsbD 2, b.getLsbD 1, b.getLsbD 0])
    ∧ ∀ (m : Memory) (x k i : Nat), k < 6 → i < 8 →
        (serialBits (m.read (byteIndex x (8 * k))))[i]? = some (pixelAt m x (8 * k + (7 - i)))

/-- The lower bounds of the spec's timing: 1.012 milliseconds for UPDATE, 1.008 for CLRSCR, 1.021 for INIT (R197; log entry 19). -/
def Obligations.SessionTransfersTakeTheirLeastTime : Prop :=
  ∀ s t : State,
    (exec .update s = .next t → leastNanoseconds t.trace = leastNanoseconds s.trace + 1012000)
      ∧ (exec .clrscr s = .next t → leastNanoseconds t.trace = leastNanoseconds s.trace + 1008000)
      ∧ (exec .init s = .next t → leastNanoseconds t.trace = leastNanoseconds s.trace + 1021000)
end

