-- ==== Sys2Proof/Laws/Decode.lean ====
section
/-! SUPPORT. The packet decoder by opcode, said once: what it reads after each opcode byte of R62, that every other byte is
refused, and that the two length bytes of SENDDAT are read as they are written. -/

namespace Sys2Proof

@[simp] theorem decode_sendcmd (rest : List Byte) : decode (0x01#8 :: rest) = decodeF1 .sendcmd rest := rfl
@[simp] theorem decode_senddat (rest : List Byte) : decode (0x02#8 :: rest) = decodeFV rest := rfl
@[simp] theorem decode_setmode (rest : List Byte) : decode (0x03#8 :: rest) = decodeF1 .setmode rest := rfl
@[simp] theorem decode_setcon (rest : List Byte) : decode (0x04#8 :: rest) = decodeF1 .setcon rest := rfl
@[simp] theorem decode_setcur (rest : List Byte) : decode (0x05#8 :: rest) = decodeF2 .setcur rest := rfl
@[simp] theorem decode_clrbuf (rest : List Byte) : decode (0x08#8 :: rest) = .ok (.clrbuf, rest) := rfl
@[simp] theorem decode_pixel (rest : List Byte) : decode (0x09#8 :: rest) = decodeF2 .pixel rest := rfl
@[simp] theorem decode_rdbuf (rest : List Byte) : decode (0x0A#8 :: rest) = .ok (.rdbuf, rest) := rfl
@[simp] theorem decode_line (rest : List Byte) : decode (0x10#8 :: rest) = decodeF4 .line rest := rfl
@[simp] theorem decode_rect (rest : List Byte) : decode (0x12#8 :: rest) = decodeF4 .rect rest := rfl
@[simp] theorem decode_rectf (rest : List Byte) : decode (0x13#8 :: rest) = decodeF4 .rectf rest := rfl
@[simp] theorem decode_tri (rest : List Byte) : decode (0x14#8 :: rest) = decodeF6 .tri rest := rfl
@[simp] theorem decode_trif (rest : List Byte) : decode (0x15#8 :: rest) = decodeF6 .trif rest := rfl
@[simp] theorem decode_circ (rest : List Byte) : decode (0x16#8 :: rest) = decodeF3 .circ rest := rfl
@[simp] theorem decode_circf (rest : List Byte) : decode (0x17#8 :: rest) = decodeF3 .circf rest := rfl
@[simp] theorem decode_init (rest : List Byte) : decode (0x20#8 :: rest) = .ok (.init, rest) := rfl
@[simp] theorem decode_update (rest : List Byte) : decode (0x21#8 :: rest) = .ok (.update, rest) := rfl
@[simp] theorem decode_clrscr (rest : List Byte) : decode (0x22#8 :: rest) = .ok (.clrscr, rest) := rfl

/-- The opcode bytes of the table of R62. -/
def opcodes : List Byte :=
  [0x01, 0x02, 0x03, 0x04, 0x05, 0x08, 0x09, 0x0A, 0x10, 0x12, 0x13, 0x14, 0x15, 0x16, 0x17, 0x20, 0x21, 0x22]

/-- A byte has a format exactly if it is an opcode of the table. -/
theorem formatOf_ne_none (op : Byte) : formatOf op ≠ none ↔ op ∈ opcodes := by
  revert op
  decide +kernel

/-- A byte outside the table is refused as a reserved opcode, whatever follows (R65). -/
theorem decode_reserved {op : Byte} (h : formatOf op = none) (rest : List Byte) :
    decode (op :: rest) = .error (.reservedOpcode op) := by
  unfold formatOf at h
  split at h <;> simp at h
  rename_i h1 h2 h3 h4 h5 h6 h7 h8 h9 h10 h11 h12 h13 h14 h15 h16 h17 h18
  unfold decode
  split
  case h_1 heq => simp at heq
  case h_2 heq =>
    obtain ⟨rfl, rfl⟩ := List.cons.inj heq
    split <;> first | rfl | (exfalso; simp_all)

/-- The length operand is low byte plus 256 times high byte (R63). -/
theorem senddatLen_toNat (lo hi : Byte) : (senddatLen lo hi).toNat = lo.toNat + 256 * hi.toNat := by
  have h1 := lo.isLt
  have h2 := hi.isLt
  rw [senddatLen, BitVec.toNat_ofNat, Nat.mod_eq_of_lt (by omega)]

/-- The two length bytes of a packet give its length back. -/
theorem senddatLen_bytes (len : BitVec 16) : senddatLen (len.extractLsb' 0 8) (len.extractLsb' 8 8) = len := by
  apply BitVec.eq_of_toNat_eq
  have h := len.isLt
  rw [senddatLen_toNat]
  simp only [BitVec.extractLsb'_toNat, Nat.shiftRight_eq_div_pow]
  omega

/-- The length bytes of a length read from two bytes are those bytes. -/
theorem senddatLenBytes_of (lo hi : Byte) : senddatLenBytes (senddatLen lo hi) = [lo, hi] := by
  have h1 := lo.isLt
  have h2 := hi.isLt
  simp only [senddatLenBytes, List.cons.injEq, and_true]
  constructor <;> apply BitVec.eq_of_toNat_eq <;>
    simp only [BitVec.extractLsb'_toNat, senddatLen_toNat, Nat.shiftRight_eq_div_pow] <;> omega

end Sys2Proof
end

