-- ==== Sys2Proof/Laws/State.lean ====
section
/-! SUPPORT. One lemma for each field of State after each named update, so that no later proof unfolds a record update. -/

namespace Sys2Proof.Machine

/-! ### emit -/

@[simp] theorem emit_fb (e : Event) (s : State) : (emit e s).fb = s.fb := rfl
@[simp] theorem emit_rst (e : Event) (s : State) : (emit e s).rst = s.rst := rfl
@[simp] theorem emit_ce (e : Event) (s : State) : (emit e s).ce = s.ce := rfl
@[simp] theorem emit_dc (e : Event) (s : State) : (emit e s).dc = s.dc := rfl
@[simp] theorem emit_busCfg (e : Event) (s : State) : (emit e s).busCfg = s.busCfg := rfl
@[simp] theorem emit_cp (e : Event) (s : State) : (emit e s).cp = s.cp := rfl
@[simp] theorem emit_trace (e : Event) (s : State) : (emit e s).trace = s.trace ++ [e] := rfl
@[simp] theorem emit_hostOut (e : Event) (s : State) : (emit e s).hostOut = s.hostOut := rfl
@[simp] theorem emit_cmd (e : Event) (s : State) : (emit e s).cmd = s.cmd := rfl
@[simp] theorem emit_transport (e : Event) (s : State) : (emit e s).transport = s.transport := rfl

/-! ### driveRst -/

@[simp] theorem driveRst_fb (l : Level) (s : State) : (driveRst l s).fb = s.fb := rfl
@[simp] theorem driveRst_rst (l : Level) (s : State) : (driveRst l s).rst = some l := rfl
@[simp] theorem driveRst_ce (l : Level) (s : State) : (driveRst l s).ce = s.ce := rfl
@[simp] theorem driveRst_dc (l : Level) (s : State) : (driveRst l s).dc = s.dc := rfl
@[simp] theorem driveRst_busCfg (l : Level) (s : State) : (driveRst l s).busCfg = s.busCfg := rfl
@[simp] theorem driveRst_cp (l : Level) (s : State) : (driveRst l s).cp = s.cp := rfl
@[simp] theorem driveRst_trace (l : Level) (s : State) : (driveRst l s).trace = s.trace ++ [.rst l] := rfl
@[simp] theorem driveRst_hostOut (l : Level) (s : State) : (driveRst l s).hostOut = s.hostOut := rfl
@[simp] theorem driveRst_cmd (l : Level) (s : State) : (driveRst l s).cmd = s.cmd := rfl
@[simp] theorem driveRst_transport (l : Level) (s : State) : (driveRst l s).transport = s.transport := rfl

/-! ### driveCe -/

@[simp] theorem driveCe_fb (l : Level) (s : State) : (driveCe l s).fb = s.fb := rfl
@[simp] theorem driveCe_rst (l : Level) (s : State) : (driveCe l s).rst = s.rst := rfl
@[simp] theorem driveCe_ce (l : Level) (s : State) : (driveCe l s).ce = some l := rfl
@[simp] theorem driveCe_dc (l : Level) (s : State) : (driveCe l s).dc = s.dc := rfl
@[simp] theorem driveCe_busCfg (l : Level) (s : State) : (driveCe l s).busCfg = s.busCfg := rfl
@[simp] theorem driveCe_cp (l : Level) (s : State) : (driveCe l s).cp = s.cp := rfl
@[simp] theorem driveCe_trace (l : Level) (s : State) : (driveCe l s).trace = s.trace ++ [.ce l] := rfl
@[simp] theorem driveCe_hostOut (l : Level) (s : State) : (driveCe l s).hostOut = s.hostOut := rfl
@[simp] theorem driveCe_cmd (l : Level) (s : State) : (driveCe l s).cmd = s.cmd := rfl
@[simp] theorem driveCe_transport (l : Level) (s : State) : (driveCe l s).transport = s.transport := rfl

/-! ### driveDc -/

@[simp] theorem driveDc_fb (l : Level) (s : State) : (driveDc l s).fb = s.fb := rfl
@[simp] theorem driveDc_rst (l : Level) (s : State) : (driveDc l s).rst = s.rst := rfl
@[simp] theorem driveDc_ce (l : Level) (s : State) : (driveDc l s).ce = s.ce := rfl
@[simp] theorem driveDc_dc (l : Level) (s : State) : (driveDc l s).dc = some l := rfl
@[simp] theorem driveDc_busCfg (l : Level) (s : State) : (driveDc l s).busCfg = s.busCfg := rfl
@[simp] theorem driveDc_cp (l : Level) (s : State) : (driveDc l s).cp = s.cp := rfl
@[simp] theorem driveDc_trace (l : Level) (s : State) : (driveDc l s).trace = s.trace ++ [.dc l] := rfl
@[simp] theorem driveDc_hostOut (l : Level) (s : State) : (driveDc l s).hostOut = s.hostOut := rfl
@[simp] theorem driveDc_cmd (l : Level) (s : State) : (driveDc l s).cmd = s.cmd := rfl
@[simp] theorem driveDc_transport (l : Level) (s : State) : (driveDc l s).transport = s.transport := rfl

/-! ### configureBus -/

@[simp] theorem configureBus_fb (p q : Bool) (s : State) : (configureBus p q s).fb = s.fb := rfl
@[simp] theorem configureBus_rst (p q : Bool) (s : State) : (configureBus p q s).rst = s.rst := rfl
@[simp] theorem configureBus_ce (p q : Bool) (s : State) : (configureBus p q s).ce = s.ce := rfl
@[simp] theorem configureBus_dc (p q : Bool) (s : State) : (configureBus p q s).dc = s.dc := rfl
@[simp] theorem configureBus_busCfg (p q : Bool) (s : State) : (configureBus p q s).busCfg = true := rfl
@[simp] theorem configureBus_cp (p q : Bool) (s : State) : (configureBus p q s).cp = s.cp := rfl
@[simp] theorem configureBus_trace (p q : Bool) (s : State) : (configureBus p q s).trace = s.trace ++ [.busCfg Config.clockHz .msbFirst p q] := rfl
@[simp] theorem configureBus_hostOut (p q : Bool) (s : State) : (configureBus p q s).hostOut = s.hostOut := rfl
@[simp] theorem configureBus_cmd (p q : Bool) (s : State) : (configureBus p q s).cmd = s.cmd := rfl
@[simp] theorem configureBus_transport (p q : Bool) (s : State) : (configureBus p q s).transport = s.transport := rfl

/-! ### afterFrame -/

@[simp] theorem afterFrame_fb (l : Level) (bs : List Byte) (s : State) : (afterFrame l bs s).fb = s.fb := rfl
@[simp] theorem afterFrame_rst (l : Level) (bs : List Byte) (s : State) : (afterFrame l bs s).rst = s.rst := rfl
@[simp] theorem afterFrame_ce (l : Level) (bs : List Byte) (s : State) : (afterFrame l bs s).ce = some .high := rfl
@[simp] theorem afterFrame_dc (l : Level) (bs : List Byte) (s : State) : (afterFrame l bs s).dc = some l := rfl
@[simp] theorem afterFrame_busCfg (l : Level) (bs : List Byte) (s : State) : (afterFrame l bs s).busCfg = s.busCfg := rfl
@[simp] theorem afterFrame_cp (l : Level) (bs : List Byte) (s : State) : (afterFrame l bs s).cp = s.cp := rfl
@[simp] theorem afterFrame_trace (l : Level) (bs : List Byte) (s : State) : (afterFrame l bs s).trace = s.trace ++ frameEvents l bs := rfl
@[simp] theorem afterFrame_hostOut (l : Level) (bs : List Byte) (s : State) : (afterFrame l bs s).hostOut = s.hostOut := rfl
@[simp] theorem afterFrame_cmd (l : Level) (bs : List Byte) (s : State) : (afterFrame l bs s).cmd = s.cmd := rfl
@[simp] theorem afterFrame_transport (l : Level) (bs : List Byte) (s : State) : (afterFrame l bs s).transport = s.transport.after bs.length := rfl

/-! ### Sequencing -/

@[simp] theorem thenDo_next (s : State) (f : State → Result) : thenDo (.next s) f = f s := rfl
@[simp] theorem thenDo_fault (e : Fault) (f : State → Result) : thenDo (.fault e) f = .fault e := rfl
@[simp] theorem thenDo_refused (e : Refusal) (f : State → Result) : thenDo (.refused e) f = .refused e := rfl

/-- A sequence answers a next state exactly if both parts do. -/
theorem thenDo_eq_next {r : Result} {f : State → Result} {t : State} :
    thenDo r f = .next t ↔ ∃ m, r = .next m ∧ f m = .next t := by
  cases r <;> simp

/-- Sequencing is associative. -/
theorem thenDo_assoc (r : Result) (f g : State → Result) :
    thenDo (thenDo r f) g = thenDo r fun s => thenDo (f s) g := by
  cases r <;> rfl

/-! ### The transport -/

@[simp] theorem Transport.after_zero (t : Transport) : t.after 0 = t := by cases t <;> rfl

theorem Transport.after_add (t : Transport) (m n : Nat) : (t.after m).after n = t.after (m + n) := by
  cases t <;> simp [Transport.after, Nat.sub_sub]

@[simp] theorem Transport.accepts_zero (t : Transport) : t.accepts 0 = true := by cases t <;> simp [Transport.accepts]

/-- A transport completes `m + n` bytes exactly if it completes `m` and then `n`. -/
theorem Transport.accepts_add (t : Transport) (m n : Nat) :
    t.accepts (m + n) = (t.accepts m && (t.after m).accepts n) := by
  cases t with
  | live => rfl
  | stallsAfter k =>
    rw [Bool.eq_iff_iff]
    simp only [Transport.accepts, Transport.after, Bool.and_eq_true, decide_eq_true_eq]
    omega

end Sys2Proof.Machine
end

