-- ==== Sys2Proof/Laws/Exec.lean ====
section
/-! SUPPORT. Each arm of `exec` as the shared operation its meaning is, and every drawing operation as `draw` of its points:
proofs rewrite with these instead of unfolding `exec`. -/

namespace Sys2Proof.Machine

theorem exec_sendcmd (byte : Byte) (s : State) : exec (.sendcmd byte) s = cmd byte s := rfl
theorem exec_senddat (len : BitVec 16) (payload : List Byte) (s : State) : exec (.senddat len payload) s = data (payload.take len.toNat) s := rfl
theorem exec_setmode (mode : Byte) (s : State) : exec (.setmode mode) s = if isMode mode then cmd (displayControlByte mode) s else .next s := rfl
theorem exec_setcon (value : Byte) (s : State) : exec (.setcon value) s = setContrast Config.setconBracket value s := rfl
theorem exec_setcur (x y : Byte) (s : State) : exec (.setcur x y) s = setCursor x y s := rfl
theorem exec_clrbuf (s : State) : exec .clrbuf s = .next { s with fb := clearBuffer s.fb } := rfl
theorem exec_rdbuf (s : State) : exec .rdbuf s = .next { s with hostOut := s.hostOut ++ s.fb.bytes } := rfl
theorem exec_init (s : State) : exec .init s = bringUp Config.vopInit Config.biasInit Config.cpol Config.cpha s := rfl
theorem exec_update (s : State) : exec .update s = thenDo (setCursor 0 0 s) (data s.fb.bytes) := rfl
theorem exec_clrscr (s : State) : exec .clrscr s = clearScreen s := rfl
theorem exec_functionSet (h : InstrSet) (s : State) : exec (.functionSet h) s = cmd (functionSetByte h) s := rfl
theorem exec_displayControl (mode : DisplayMode) (s : State) : exec (.displayControl mode) s = cmd (displayControlByte mode.bits) s := rfl
theorem exec_xAddressSet (x : BitVec 7) (s : State) : exec (.xAddressSet x) s = cmd (xAddressByte (x.setWidth 8)) s := rfl
theorem exec_yAddressSet (y : BitVec 6) (s : State) : exec (.yAddressSet y) s = cmd (yAddressByte (y.setWidth 8)) s := rfl
theorem exec_vopSet (v : BitVec 7) (s : State) : exec (.vopSet v) s = cmd (vopByte (v.setWidth 8)) s := rfl
theorem exec_temperatureControl (t : BitVec 2) (s : State) : exec (.temperatureControl t) s = cmd (temperatureByte (t.setWidth 8)) s := rfl
theorem exec_biasSystem (b : BitVec 3) (s : State) : exec (.biasSystem b) s = cmd (biasByte (b.setWidth 8)) s := rfl

/-- A drawing operation plots its points and does nothing else (R46, R110). -/
theorem exec_drawing {i : Instr} (h : isDrawing i = true) (s : State) : exec i s = draw (plottedPoints i) s := by
  cases i <;> first | exact absurd h Bool.false_ne_true | rfl

end Sys2Proof.Machine
end

