-- ==== Sys2Proof/Laws/Memory.lean ====
section
/-! SUPPORT. The framebuffer: what a read gives after a write, that every operation keeps the canonical form, that equal
contents are equal data, and what `Plot` does to one pixel. -/

namespace Sys2Proof.Machine

/-! ### The canonical form -/

theorem Memory.wfFrom_cons {lo a : Nat} {v : Byte} {m : Memory} :
    Memory.wfFrom lo ((a, v) :: m) = true ↔
      lo ≤ a ∧ a < Config.fbSize ∧ v ≠ Memory.unlisted ∧ Memory.wfFrom (a + 1) m = true := by
  simp [Memory.wfFrom, and_assoc]

/-- The form from an index on is the form from any lower one. -/
theorem Memory.wfFrom_mono {lo lo' : Nat} {m : Memory} (h : lo' ≤ lo) (hm : Memory.wfFrom lo m = true) :
    Memory.wfFrom lo' m = true := by
  cases m with
  | nil => rfl
  | cons c m =>
    obtain ⟨a, v⟩ := c
    rw [Memory.wfFrom_cons] at hm ⊢
    exact ⟨by omega, hm.2⟩

/-- An index below the form's start is not listed. -/
theorem Memory.read_below {lo i : Nat} {m : Memory} (hm : Memory.wfFrom lo m = true) (hi : i < lo) :
    m.read i = Memory.unlisted := by
  induction m generalizing lo with
  | nil => rfl
  | cons c m ih =>
    obtain ⟨a, v⟩ := c
    rw [Memory.wfFrom_cons] at hm
    rw [Memory.read, if_neg (by omega)]
    exact ih hm.2.2.2 (by omega)

/-- A write of an index of the framebuffer keeps the canonical form. -/
theorem Memory.write_wfFrom {lo i : Nat} {v : Byte} {m : Memory} (hm : Memory.wfFrom lo m = true) (hlo : lo ≤ i)
    (hi : i < Config.fbSize) : Memory.wfFrom lo (m.write i v) = true := by
  induction m generalizing lo with
  | nil =>
    rw [Memory.write]
    split
    · rfl
    · next hv => exact Memory.wfFrom_cons.2 ⟨hlo, hi, hv, rfl⟩
  | cons c m ih =>
    obtain ⟨a, w⟩ := c
    have hm' := Memory.wfFrom_cons.1 hm
    rw [Memory.write]
    split
    · next hia =>
      split
      · exact hm
      · next hv =>
        exact Memory.wfFrom_cons.2 ⟨hlo, hi, hv, Memory.wfFrom_cons.2 ⟨by omega, hm'.2⟩⟩
    · split
      · next hia =>
        subst hia
        split
        · exact Memory.wfFrom_mono (by omega) hm'.2.2.2
        · next hv => exact Memory.wfFrom_cons.2 ⟨hlo, hi, hv, hm'.2.2.2⟩
      · exact Memory.wfFrom_cons.2 ⟨hm'.1, hm'.2.1, hm'.2.2.1, ih hm'.2.2.2 (by omega)⟩

/-- A write of an index of the framebuffer keeps the canonical form. -/
theorem Memory.write_wf {m : Memory} {i : Nat} (v : Byte) (hm : m.wf = true) (hi : i < Config.fbSize) :
    (m.write i v).wf = true :=
  Memory.write_wfFrom hm (Nat.zero_le i) hi

/-! ### Read after write -/

/-- A read after a write to the same index gives the value written. -/
theorem Memory.read_write_same {m : Memory} (i : Nat) (v : Byte) (hm : m.wf = true) : (m.write i v).read i = v := by
  suffices h : ∀ lo, Memory.wfFrom lo m = true → (m.write i v).read i = v from h 0 hm
  clear hm
  induction m with
  | nil =>
    intro lo _
    rw [Memory.write]
    split
    · next hv => exact hv.symm
    · simp [Memory.read]
  | cons c m ih =>
    obtain ⟨a, w⟩ := c
    intro lo hm
    have hm' := Memory.wfFrom_cons.1 hm
    rw [Memory.write]
    split
    · next hia =>
      split
      · next hv =>
        rw [Memory.read, if_neg (by omega), Memory.read_below hm'.2.2.2 (by omega), hv]
      · simp [Memory.read]
    · split
      · next hia =>
        split
        · next hv => rw [Memory.read_below hm'.2.2.2 (by omega), hv]
        · simp [Memory.read]
      · next h1 h2 =>
        rw [Memory.read, if_neg (by omega)]
        exact ih (a + 1) hm'.2.2.2

/-- A write leaves every other index alone. -/
theorem Memory.read_write_other {m : Memory} {i j : Nat} (v : Byte) (h : j ≠ i) : (m.write i v).read j = m.read j := by
  induction m with
  | nil =>
    rw [Memory.write]
    split
    · rfl
    · simp [Memory.read, Ne.symm h]
  | cons c m ih =>
    obtain ⟨a, w⟩ := c
    rw [Memory.write]
    split
    · split
      · rfl
      · rw [Memory.read, if_neg (Ne.symm h)]
    · split
      · next hia =>
        subst hia
        split
        · rw [Memory.read, if_neg (Ne.symm h)]
        · rw [Memory.read, if_neg (Ne.symm h), Memory.read, if_neg (Ne.symm h)]
      · rw [Memory.read, Memory.read, ih]

/-- Framebuffers in canonical form with equal contents are equal data. -/
theorem Memory.ext_wf {m m' : Memory} (hm : m.wf = true) (hm' : m'.wf = true) (h : ∀ i, m.read i = m'.read i) :
    m = m' := by
  suffices key : ∀ (m m' : Memory) (lo : Nat), Memory.wfFrom lo m = true → Memory.wfFrom lo m' = true →
      (∀ i, m.read i = m'.read i) → m = m' from key m m' 0 hm hm' h
  clear hm hm' h m m'
  intro m
  induction m with
  | nil =>
    intro m' lo _ hm' h
    cases m' with
    | nil => rfl
    | cons c m' =>
      obtain ⟨a, v⟩ := c
      have := (Memory.wfFrom_cons.1 hm').2.2.1
      have ha := h a
      simp only [Memory.read, if_true] at ha
      exact absurd ha.symm this
  | cons c m ih =>
    obtain ⟨a, v⟩ := c
    intro m' lo hm hm' h
    have hc := Memory.wfFrom_cons.1 hm
    cases m' with
    | nil =>
      have ha := h a
      simp only [Memory.read, if_true] at ha
      exact absurd ha hc.2.2.1
    | cons c' m' =>
      obtain ⟨a', v'⟩ := c'
      have hc' := Memory.wfFrom_cons.1 hm'
      have haa : a = a' := by
        rcases Nat.lt_trichotomy a a' with hlt | heq | hgt
        · have ha := h a
          rw [Memory.read, if_pos rfl, Memory.read, if_neg (by omega),
            Memory.read_below hc'.2.2.2 (by omega)] at ha
          exact absurd ha hc.2.2.1
        · exact heq
        · have ha := h a'
          rw [Memory.read, if_neg (by omega), Memory.read_below hc.2.2.2 (by omega), Memory.read, if_pos rfl] at ha
          exact absurd ha.symm hc'.2.2.1
      subst haa
      have hv : v = v' := by simpa [Memory.read] using h a
      subst hv
      congr 1
      refine ih m' (a + 1) hc.2.2.2 hc'.2.2.2 fun i => ?_
      by_cases hi : a = i
      · subst hi
        rw [Memory.read_below hc.2.2.2 (by omega), Memory.read_below hc'.2.2.2 (by omega)]
      · simpa [Memory.read, hi] using h i

/-! ### The clear -/

theorem Memory.foldl_write_zero {l : List Nat} {m : Memory} (hm : m.wf = true) (hl : ∀ i ∈ l, i < Config.fbSize) :
    (l.foldl (fun m i => m.write i 0x00) m).wf = true ∧
      ∀ j, (l.foldl (fun m i => m.write i 0x00) m).read j = if j ∈ l then 0x00 else m.read j := by
  induction l generalizing m with
  | nil => simp [hm]
  | cons i l ih =>
    have hi := hl i (by simp)
    obtain ⟨h1, h2⟩ := ih (Memory.write_wf 0x00 hm hi) fun k hk => hl k (by simp [hk])
    refine ⟨h1, fun j => ?_⟩
    rw [List.foldl_cons, h2 j]
    by_cases hj : j ∈ l
    · simp [hj]
    · rw [if_neg hj]
      by_cases hji : j = i
      · subst hji
        rw [if_pos (by simp), Memory.read_write_same j 0x00 hm]
      · rw [if_neg (by simp [hj, hji]), Memory.read_write_other 0x00 hji]

/-- An index outside the framebuffer is not listed. -/
theorem Memory.read_outside {m : Memory} {i : Nat} (hm : m.wf = true) (hi : Config.fbSize ≤ i) :
    m.read i = Memory.unlisted := by
  suffices h : ∀ lo, Memory.wfFrom lo m = true → m.read i = Memory.unlisted from h 0 hm
  clear hm
  induction m with
  | nil => intro _ _; rfl
  | cons c m ih =>
    obtain ⟨a, v⟩ := c
    intro lo hm
    have hc := Memory.wfFrom_cons.1 hm
    rw [Memory.read, if_neg (by omega)]
    exact ih (a + 1) hc.2.2.2

/-- After a clear every byte reads 0x00, so the framebuffer lists nothing (R100). -/
theorem clearBuffer_eq {m : Memory} (hm : m.wf = true) : clearBuffer m = [] := by
  obtain ⟨h1, h2⟩ := Memory.foldl_write_zero (l := List.range Config.fbSize) hm fun i hi => List.mem_range.1 hi
  refine Memory.ext_wf h1 rfl fun i => ?_
  change ((List.range Config.fbSize).foldl (fun m i => m.write i 0x00) m).read i = Memory.unlisted
  rw [h2 i]
  split
  · rfl
  · next h => exact Memory.read_outside hm (by simpa using h)

/-! ### The readout -/

@[simp] theorem Memory.bytes_length (m : Memory) : m.bytes.length = Config.fbSize := by simp [Memory.bytes]

/-- Byte `i` of a readout is `FB[i]` (R104, R152). -/
theorem Memory.bytes_getElem (m : Memory) (i : Nat) (h : i < m.bytes.length) : m.bytes[i] = m.read i := by
  simp [Memory.bytes]

/-! ### Bit addressing and the pixel write -/

/-- The byte of a pixel of the surface lies in the framebuffer (R41, R47). -/
theorem byteIndex_lt {x y : Nat} (hx : x < Config.width) (hy : y < Config.height) : byteIndex x y < Config.fbSize := by
  simp only [byteIndex, Config.width, Config.height, Config.fbSize] at *
  omega

/-- Two pixels of the surface share a byte exactly if they share the column and the band (R42). -/
theorem byteIndex_inj {x y x' y' : Nat} (hx : x < Config.width) (hx' : x' < Config.width) :
    byteIndex x y = byteIndex x' y' ↔ x = x' ∧ y / 8 = y' / 8 := by
  simp only [byteIndex, Config.width] at *
  omega

theorem bit_lt (y : Nat) : bitIndex y < 8 := Nat.mod_lt _ (by omega)

/-- The mask of a row is the one bit of that row (R41). -/
theorem pixelMask_getLsbD (y i : Nat) (hi : i < 8) : (pixelMask y).getLsbD i = decide (i = bitIndex y) := by
  have all : ∀ k < 8, ∀ i < 8, ((1 : Byte) <<< k).getLsbD i = decide (i = k) := by decide
  exact all _ (bit_lt y) i hi

/-- A pixel is set if its bit is 1 (R41). -/
theorem pixelAt_eq (m : Memory) (x y : Nat) : pixelAt m x y = (m.read (byteIndex x y)).getLsbD (bitIndex y) := by
  have h := bit_lt y
  rw [pixelAt, Bool.eq_iff_iff]
  simp only [bne_iff_ne, ne_eq]
  constructor
  · intro hne
    by_contra hb
    apply hne
    apply BitVec.eq_of_getLsbD_eq
    intro i hi
    rw [BitVec.getLsbD_and, pixelMask_getLsbD y i hi]
    by_cases hiy : i = bitIndex y
    · subst hiy; simpa using hb
    · simp [hiy]
  · intro hb h0
    have := congrArg (fun v => BitVec.getLsbD v (bitIndex y)) h0
    simp [BitVec.getLsbD_and, pixelMask_getLsbD y _ h, hb] at this

/-- The coordinates of a point of the surface, as natural numbers. -/
theorem onSurface_iff {p : Point} :
    onSurface p = true ↔ ∃ x y : Nat, x < Config.width ∧ y < Config.height ∧ p = ((x : Int), (y : Int)) := by
  obtain ⟨a, b⟩ := p
  simp only [onSurface, Bool.and_eq_true, decide_eq_true_eq, Prod.mk.injEq]
  constructor
  · rintro ⟨⟨⟨h1, h2⟩, h3⟩, h4⟩
    exact ⟨a.toNat, b.toNat, by omega, by omega, by omega, by omega⟩
  · rintro ⟨x, y, hx, hy, rfl, rfl⟩
    omega

/-- Outside the surface `Plot` makes no access (R101). -/
theorem plot_off {p : Point} (m : Memory) (h : onSurface p = false) : plot p m = m := by simp [plot, h]

/-- `Plot` keeps the canonical form (R47). -/
theorem plot_wf {p : Point} {m : Memory} (hm : m.wf = true) : (plot p m).wf = true := by
  cases h : onSurface p with
  | false => rwa [plot_off m h]
  | true =>
    obtain ⟨x, y, hx, hy, rfl⟩ := onSurface_iff.1 h
    rw [plot, if_pos h]
    exact Memory.write_wf _ hm (byteIndex_lt (by simpa using hx) (by simpa using hy))

/-- What `Plot` does to a byte: OR the mask into the pixel's byte, nothing to any other (R45, R101). -/
theorem read_plot {m : Memory} (hm : m.wf = true) (p : Point) (i : Nat) :
    (plot p m).read i =
      if onSurface p = true ∧ i = byteIndex p.1.toNat p.2.toNat then m.read i ||| pixelMask p.2.toNat else m.read i := by
  cases h : onSurface p with
  | false => simp [plot_off m h]
  | true =>
    rw [plot, if_pos h]
    by_cases hi : i = byteIndex p.1.toNat p.2.toNat
    · subst hi; simp [Memory.read_write_same _ _ hm]
    · simp [hi, Memory.read_write_other _ hi]

/-- What `Plot` does to a pixel of the surface: set it if it is the point, leave it otherwise (R101). -/
theorem pixelAt_plot {m : Memory} (hm : m.wf = true) (p : Point) {x y : Nat} (hx : x < Config.width)
    (hy : y < Config.height) :
    pixelAt (plot p m) x y = (pixelAt m x y || decide (p = ((x : Int), (y : Int)))) := by
  have hxy : onSurface ((x : Int), (y : Int)) = true := onSurface_iff.2 ⟨x, y, hx, hy, rfl⟩
  cases h : onSurface p with
  | false =>
    have hne : p ≠ ((x : Int), (y : Int)) := by rintro rfl; simp [hxy] at h
    simp [plot_off m h, hne]
  | true =>
    obtain ⟨a, b, ha, hb, rfl⟩ := onSurface_iff.1 h
    rw [pixelAt_eq, pixelAt_eq, read_plot hm]
    simp only [h, true_and, Int.toNat_natCast, byteIndex_inj hx ha]
    by_cases hsame : x = a ∧ y / 8 = b / 8
    · rw [if_pos hsame, BitVec.getLsbD_or, pixelMask_getLsbD b _ (bit_lt y)]
      congr 1
      refine decide_eq_decide.2 ?_
      simp only [bitIndex, Prod.mk.injEq, Nat.cast_inj, hsame.1, true_and]
      have := hsame.2
      omega
    · rw [if_neg hsame]
      have hne : ((a : Int), (b : Int)) ≠ ((x : Int), (y : Int)) := by
        intro he
        simp only [Prod.mk.injEq, Nat.cast_inj] at he
        exact hsame ⟨he.1.symm, by rw [he.2]⟩
      simp [hne]

/-- Plotting keeps the canonical form. -/
theorem plotAll_wf {ps : List Point} {m : Memory} (hm : m.wf = true) : (plotAll ps m).wf = true := by
  induction ps generalizing m with
  | nil => exact hm
  | cons p ps ih => exact ih (plot_wf hm)

/-- Plotting one list after another is plotting both (R14). -/
theorem plotAll_append (ps qs : List Point) (m : Memory) : plotAll (ps ++ qs) m = plotAll qs (plotAll ps m) := by
  simp [plotAll]

/-- What plotting does to a pixel of the surface: set it if it is one of the points (R46). -/
theorem pixelAt_plotAll {ps : List Point} {m : Memory} (hm : m.wf = true) {x y : Nat} (hx : x < Config.width)
    (hy : y < Config.height) :
    pixelAt (plotAll ps m) x y = (pixelAt m x y || decide (((x : Int), (y : Int)) ∈ ps)) := by
  induction ps generalizing m with
  | nil => simp [plotAll]
  | cons p ps ih =>
    have h := ih (m := plot p m) (plot_wf hm)
    rw [show plotAll (p :: ps) m = plotAll ps (plot p m) from rfl, h, pixelAt_plot hm p hx hy, Bool.or_assoc]
    simp only [List.mem_cons, Bool.decide_or, @eq_comm _ ((x : Int), (y : Int)) p]

/-- A byte no plotted point of the surface lies in reads as before (R45). -/
theorem read_plotAll_other {ps : List Point} {m : Memory} (hm : m.wf = true) {i : Nat}
    (h : ∀ p ∈ ps, onSurface p = true → byteIndex p.1.toNat p.2.toNat ≠ i) : (plotAll ps m).read i = m.read i := by
  induction ps generalizing m with
  | nil => rfl
  | cons p ps ih =>
    rw [show plotAll (p :: ps) m = plotAll ps (plot p m) from rfl, ih (plot_wf hm) fun q hq => h q (by simp [hq]),
      read_plot hm, if_neg]
    rintro ⟨hp, he⟩
    exact h p (by simp) hp he.symm

end Sys2Proof.Machine
end

