-- ==== Sys2Proof/Laws/Wire.lean ====
section
/-! SUPPORT. What the byte transfer and the two framing procedures can do, said once: proofs cite these instead of
unfolding `tx`, `cmd` and `data`. -/

namespace Sys2Proof.Machine

/-- One byte: sent, or stuck before it (R166). -/
theorem tx_eq (b : Byte) (s : State) :
    tx b s =
      if s.transport.accepts 1 then
        .next { s with trace := s.trace ++ [.tx b], transport := s.transport.after 1 }
      else .fault (.transferNeverCompletes s) := rfl

/-- A transfer whose bytes the transport completes: all of them are sent, in order (R172). -/
theorem txAll_accepts {bs : List Byte} {s : State} (h : s.transport.accepts bs.length = true) :
    txAll bs s =
      .next { s with trace := s.trace ++ bs.map .tx, transport := s.transport.after bs.length } := by
  induction bs generalizing s with
  | nil => simp [txAll]
  | cons b bs ih =>
    rw [List.length_cons, Nat.add_comm, Transport.accepts_add, Bool.and_eq_true] at h
    simp only [txAll, tx_eq, h.1, if_true, thenDo_next]
    rw [ih h.2]
    simp [Transport.after_add, Nat.add_comm]

/-- A transfer the transport does not complete is stuck after the bytes it does complete (R166). -/
theorem txAll_stalls {bs : List Byte} {s : State} {k : Nat} (h : s.transport = .stallsAfter k) (hk : k < bs.length) :
    txAll bs s =
      .fault (.transferNeverCompletes
        { s with trace := s.trace ++ (bs.take k).map .tx, transport := .stallsAfter 0 }) := by
  induction bs generalizing s k with
  | nil => simp at hk
  | cons b bs ih =>
    cases k with
    | zero =>
      have hs : { s with transport := .stallsAfter 0 } = s := by rw [← h]
      simp [txAll, tx_eq, h, Transport.accepts, hs]
    | succ k =>
      simp only [txAll, tx_eq, h, Transport.accepts, Transport.after, Nat.le_add_left, decide_true, if_true,
        thenDo_next, Nat.add_sub_cancel]
      rw [ih rfl (by simpa using hk)]
      simp

/-- `Data(bytes)` completes when the bus is configured and the transport completes its bytes (R82). -/
theorem data_accepts {bs : List Byte} {s : State} (hb : s.busCfg = true) (h : s.transport.accepts bs.length = true) :
    data bs s = .next (afterFrame .high bs s) := by
  simp only [data, hb, if_true]
  rw [txAll_accepts (by simpa using h)]
  simp [afterFrame, frameEvents, driveCe, driveDc, emit]

/-- `Cmd(b)` completes when the bus is configured and the transport completes one byte (R81). -/
theorem cmd_accepts {b : Byte} {s : State} (hb : s.busCfg = true) (h : s.transport.accepts 1 = true) :
    cmd b s = .next (afterFrame .low [b] s) := by
  simp [cmd, hb, tx_eq, h, afterFrame, frameEvents, driveCe, driveDc, emit]

/-- A frame the transport does not complete: stuck with chip enable low (R166). -/
theorem data_stalls {bs : List Byte} {s : State} {k : Nat} (hb : s.busCfg = true)
    (h : s.transport = .stallsAfter k) (hk : k < bs.length) :
    data bs s = .fault (.transferNeverCompletes (stuckInFrame .high bs k s)) := by
  simp only [data, hb, if_true]
  rw [txAll_stalls (k := k) (by simpa using h) hk]
  simp [stuckInFrame, driveCe, driveDc, emit]

/-- A command frame the transport does not complete (R166). -/
theorem cmd_stalls {b : Byte} {s : State} (hb : s.busCfg = true) (h : s.transport.accepts 1 = false) :
    cmd b s = .fault (.transferNeverCompletes (stuckInFrame .low [b] 0 s)) := by
  have h0 : s.transport = .stallsAfter 0 := by
    cases ht : s.transport with
    | live => simp [ht, Transport.accepts] at h
    | stallsAfter k =>
      rw [ht] at h
      simp only [Transport.accepts, decide_eq_false_iff_not] at h
      rw [show k = 0 by omega]
  simp [cmd, hb, tx_eq, h0, Transport.accepts, stuckInFrame, driveCe, driveDc, emit]

/-- A frame before INIT is refused (R89). -/
theorem cmd_refused {b : Byte} {s : State} (hb : s.busCfg = false) : cmd b s = .refused .busNotConfigured := by
  simp [cmd, hb]

/-- A frame before INIT is refused (R89). -/
theorem data_refused {bs : List Byte} {s : State} (hb : s.busCfg = false) : data bs s = .refused .busNotConfigured := by
  simp [data, hb]

/-- All that `Cmd` can do when it answers a next state. -/
theorem cmd_next {b : Byte} {s t : State} (h : cmd b s = .next t) :
    s.busCfg = true ∧ s.transport.accepts 1 = true ∧ t = afterFrame .low [b] s := by
  cases hb : s.busCfg with
  | false => simp [cmd_refused hb] at h
  | true =>
    cases ha : s.transport.accepts 1 with
    | false => simp [cmd_stalls hb ha] at h
    | true => rw [cmd_accepts hb ha] at h; exact ⟨rfl, rfl, (Host.Outcome.next.inj h).symm⟩

/-- All that `Data` can do when it answers a next state. -/
theorem data_next {bs : List Byte} {s t : State} (h : data bs s = .next t) :
    s.busCfg = true ∧ s.transport.accepts bs.length = true ∧ t = afterFrame .high bs s := by
  cases hb : s.busCfg with
  | false => simp [data_refused hb] at h
  | true =>
    cases ha : s.transport.accepts bs.length with
    | true => rw [data_accepts hb ha] at h; exact ⟨rfl, rfl, (Host.Outcome.next.inj h).symm⟩
    | false =>
      cases ht : s.transport with
      | live => simp [ht, Transport.accepts] at ha
      | stallsAfter k =>
        rw [ht] at ha
        simp only [Transport.accepts, decide_eq_false_iff_not, Nat.not_le] at ha
        simp [data_stalls hb ht ha] at h

end Sys2Proof.Machine
end

