-- ==== Sys2Proof/Laws/Session.lean ====
section
/-! SUPPORT. What a run of frames can do, said once: the zero frames of `ClearScreen` and the commands of the bring-up. -/

namespace Sys2Proof.Machine

/-- The events of `n` frames of one zero byte. -/
def zeroFrameEvents (n : Nat) : List Event := (List.replicate n (frameEvents .high [0x00])).flatten

theorem zeroFrameEvents_length (n : Nat) : (zeroFrameEvents n).length = 4 * n := by
  simp [zeroFrameEvents, frameEvents, Nat.mul_comm]

/-- The events of command frames one after another. -/
def cmdEvents (bs : List Byte) : List Event := bs.flatMap fun b => frameEvents .low [b]

@[simp] theorem zeroFrames_zero (s : State) : zeroFrames 0 s = .next s := rfl

theorem zeroFrames_succ (n : Nat) (s : State) : zeroFrames (n + 1) s = thenDo (data [0x00] s) (zeroFrames n) := rfl

/-- The screen clear as one frame and 503 more: the form the lemmas below apply to. -/
theorem clearScreen_eq (s : State) : clearScreen s = zeroFrames (503 + 1) s := rfl

/-- One zero frame or more, on a configured bus, when the transport completes as many bytes (R153). -/
theorem zeroFrames_accepts {n : Nat} {s : State} (hb : s.busCfg = true) (h : s.transport.accepts (n + 1) = true) :
    zeroFrames (n + 1) s =
      .next { s with dc := some .high, ce := some .high, trace := s.trace ++ zeroFrameEvents (n + 1),
                     transport := s.transport.after (n + 1) } := by
  induction n generalizing s with
  | zero => rw [zeroFrames_succ, data_accepts (bs := [0x00]) hb h]; simp [afterFrame, zeroFrameEvents]
  | succ n ih =>
    rw [Nat.add_comm, Transport.accepts_add, Bool.and_eq_true] at h
    rw [zeroFrames_succ, data_accepts (bs := [0x00]) hb h.1, thenDo_next, ih (s := afterFrame .high [0x00] s) hb h.2]
    simp [afterFrame, zeroFrameEvents, List.replicate_succ, Transport.after_add, Nat.add_comm 1 (n + 1)]

/-- A zero frame before INIT is refused (R89). -/
theorem zeroFrames_refused {n : Nat} {s : State} (hb : s.busCfg = false) :
    zeroFrames (n + 1) s = .refused .busNotConfigured := by
  rw [zeroFrames_succ, data_refused hb]; rfl

/-- All that a run of zero frames can do when it answers a next state. -/
theorem zeroFrames_next {n : Nat} {s t : State} (h : zeroFrames (n + 1) s = .next t) :
    s.busCfg = true ∧ s.transport.accepts (n + 1) = true := by
  induction n generalizing s with
  | zero =>
    rw [zeroFrames_succ, thenDo_eq_next] at h
    obtain ⟨m, h1, _⟩ := h
    obtain ⟨hb, ha, _⟩ := data_next h1
    exact ⟨hb, ha⟩
  | succ n ih =>
    rw [zeroFrames_succ, thenDo_eq_next] at h
    obtain ⟨m, h1, h2⟩ := h
    obtain ⟨hb, ha, rfl⟩ := data_next h1
    refine ⟨hb, ?_⟩
    rw [Nat.add_comm, Transport.accepts_add, Bool.and_eq_true]
    exact ⟨ha, (ih h2).2⟩

/-- Commands on a configured bus, when the transport completes as many bytes (R81, R151). -/
theorem cmds_accepts {b : Byte} {bs : List Byte} {s : State} (hb : s.busCfg = true)
    (h : s.transport.accepts (bs.length + 1) = true) :
    cmds (b :: bs) s =
      .next { s with dc := some .low, ce := some .high, trace := s.trace ++ cmdEvents (b :: bs),
                     transport := s.transport.after (bs.length + 1) } := by
  induction bs generalizing s b with
  | nil => simp [cmds, cmd_accepts hb h, afterFrame, cmdEvents]
  | cons c bs ih =>
    rw [Nat.add_comm, Transport.accepts_add, Bool.and_eq_true] at h
    rw [cmds, cmd_accepts hb h.1, thenDo_next, ih (s := afterFrame .low [b] s) hb h.2]
    simp [afterFrame, cmdEvents, Transport.after_add, Nat.add_comm]

/-- All that a run of commands can do when it answers a next state. -/
theorem cmds_next {bs : List Byte} {s t : State} (h : cmds bs s = .next t) :
    (bs = [] ∨ s.busCfg = true) ∧ s.transport.accepts bs.length = true := by
  induction bs generalizing s with
  | nil => simp
  | cons b bs ih =>
    rw [cmds, thenDo_eq_next] at h
    obtain ⟨m, h1, h2⟩ := h
    obtain ⟨hb, ha, rfl⟩ := cmd_next h1
    refine ⟨.inr hb, ?_⟩
    rw [List.length_cons, Nat.add_comm, Transport.accepts_add, Bool.and_eq_true]
    exact ⟨ha, (ih h2).2⟩

end Sys2Proof.Machine
end

