-- ==== Sys2Proof/Laws/Frames.lean ====
section
/-! SUPPORT. Every operation that sends frames, INIT apart, is one list of frames, and INIT is two. What a list of frames can
do, completing or stalled, is said once for all of them. -/

namespace Sys2Proof.Machine

/-- One frame: `Cmd` or `Data` by the level of command/data select (R81, R82). -/
def sendFrame (dc : Level) (bytes : List Byte) (s : State) : Result :=
  if s.busCfg then thenDo (txAll bytes (driveCe .low (driveDc dc s))) fun t => .next (driveCe .high t)
  else .refused .busNotConfigured

/-- Frames one after another. -/
def sendFrames : List (Level × List Byte) → State → Result
  | [], s => .next s
  | f :: fs, s => thenDo (sendFrame f.1 f.2 s) (sendFrames fs)

/-- The events of frames one after another. -/
def framesEvents (fs : List (Level × List Byte)) : List Event := fs.flatMap fun f => frameEvents f.1 f.2

/-- The number of bytes in some frames. -/
def framesBytes (fs : List (Level × List Byte)) : Nat := (fs.map fun f => f.2.length).sum

/-- The state after frames one after another, all completed. -/
def afterFrames (fs : List (Level × List Byte)) (s : State) : State := fs.foldl (fun s f => afterFrame f.1 f.2 s) s

@[simp] theorem sentBytes_append (t u : List Event) : sentBytes (t ++ u) = sentBytes t ++ sentBytes u := by simp [sentBytes]

@[simp] theorem sentBytes_tx (bs : List Byte) : sentBytes (bs.map .tx) = bs := by
  induction bs with
  | nil => rfl
  | cons b bs ih => rw [List.map_cons, show ∀ t, sentBytes (.tx b :: t) = b :: sentBytes t from fun _ => rfl, ih]

@[simp] theorem sentBytes_frameEvents (dc : Level) (bs : List Byte) : sentBytes (frameEvents dc bs) = bs := by
  simp only [frameEvents, sentBytes_append, sentBytes_tx]
  simp [sentBytes]

@[simp] theorem framesEvents_cons (f : Level × List Byte) (fs : List (Level × List Byte)) :
    framesEvents (f :: fs) = frameEvents f.1 f.2 ++ framesEvents fs := rfl

@[simp] theorem framesBytes_cons (f : Level × List Byte) (fs : List (Level × List Byte)) :
    framesBytes (f :: fs) = f.2.length + framesBytes fs := rfl

theorem data_eq_sendFrame (bytes : List Byte) (s : State) : data bytes s = sendFrame .high bytes s := rfl

theorem cmd_eq_sendFrame (b : Byte) (s : State) : cmd b s = sendFrame .low [b] s := by
  simp only [cmd, sendFrame, txAll]
  cases h : tx b (driveCe .low (driveDc .low s)) <;> rfl

theorem thenDo_next_right (r : Result) : thenDo r .next = r := by cases r <;> rfl

theorem cmd_eq_sendFrames (b : Byte) (s : State) : cmd b s = sendFrames [(.low, [b])] s := by
  rw [cmd_eq_sendFrame]; exact (thenDo_next_right _).symm

theorem data_eq_sendFrames (bytes : List Byte) (s : State) : data bytes s = sendFrames [(.high, bytes)] s :=
  (thenDo_next_right _).symm

theorem cmds_eq_sendFrames (bs : List Byte) (s : State) : cmds bs s = sendFrames (bs.map fun b => (.low, [b])) s := by
  induction bs generalizing s with
  | nil => rfl
  | cons b bs ih =>
    rw [cmds, cmd_eq_sendFrame, List.map_cons, sendFrames]
    exact congrArg _ (funext ih)

theorem zeroFrames_eq_sendFrames (n : Nat) (s : State) :
    zeroFrames n s = sendFrames (List.replicate n (.high, [0x00])) s := by
  induction n generalizing s with
  | zero => rfl
  | succ n ih =>
    rw [zeroFrames, data_eq_sendFrame, List.replicate_succ, sendFrames]
    exact congrArg _ (funext ih)

/-- A frame completes when the bus is configured and the transport completes its bytes (R81, R82). -/
theorem sendFrame_accepts {dc : Level} {bytes : List Byte} {s : State} (hb : s.busCfg = true)
    (h : s.transport.accepts bytes.length = true) : sendFrame dc bytes s = .next (afterFrame dc bytes s) := by
  simp only [sendFrame, hb, if_true]
  rw [txAll_accepts (by simpa using h)]
  simp [afterFrame, frameEvents, driveCe, driveDc, emit]

/-- A frame the transport does not complete: stuck with chip enable low (R166). -/
theorem sendFrame_stalls {dc : Level} {bytes : List Byte} {s : State} {k : Nat} (hb : s.busCfg = true)
    (h : s.transport = .stallsAfter k) (hk : k < bytes.length) :
    sendFrame dc bytes s = .fault (.transferNeverCompletes (stuckInFrame dc bytes k s)) := by
  simp only [sendFrame, hb, if_true]
  rw [txAll_stalls (k := k) (by simpa using h) hk]
  simp [stuckInFrame, driveCe, driveDc, emit]

/-- What frames leave alone when all complete, and what they append. -/
theorem afterFrames_eq (fs : List (Level × List Byte)) (s : State) :
    afterFrames fs s =
      { s with dc := (afterFrames fs s).dc, ce := (afterFrames fs s).ce, trace := s.trace ++ framesEvents fs,
               transport := s.transport.after (framesBytes fs) } := by
  induction fs generalizing s with
  | nil => simp [afterFrames, framesEvents, framesBytes]
  | cons f fs ih =>
    rw [show afterFrames (f :: fs) s = afterFrames fs (afterFrame f.1 f.2 s) from rfl, ih]
    simp [afterFrame, Transport.after_add]

/-- Frames complete when the bus is configured and the transport completes their bytes. -/
theorem sendFrames_accepts {fs : List (Level × List Byte)} {s : State} (hb : s.busCfg = true)
    (h : s.transport.accepts (framesBytes fs) = true) : sendFrames fs s = .next (afterFrames fs s) := by
  induction fs generalizing s with
  | nil => rfl
  | cons f fs ih =>
    rw [framesBytes_cons, Transport.accepts_add, Bool.and_eq_true] at h
    rw [sendFrames, sendFrame_accepts hb h.1, thenDo_next, ih (by exact hb) (by exact h.2)]
    rfl

/-- Frames the transport does not complete: stuck in the frame of the byte it never sends, after all that comes before that
byte, chip enable low (R166). -/
theorem sendFrames_stalls {fs : List (Level × List Byte)} {s : State} {k : Nat} (hb : s.busCfg = true)
    (h : s.transport = .stallsAfter k) (hk : k < framesBytes fs) :
    ∃ (dc : Level) (sent : List Event) (b : Byte) (rest : List Event),
      sendFrames fs s =
          .fault (.transferNeverCompletes
            { s with dc := some dc, ce := some .low, trace := s.trace ++ sent, transport := .stallsAfter 0 })
        ∧ framesEvents fs = sent ++ .tx b :: rest ∧ (sentBytes sent).length = k := by
  induction fs generalizing s k with
  | nil => simp [framesBytes] at hk
  | cons f fs ih =>
    obtain ⟨dc, bs⟩ := f
    by_cases hlt : k < bs.length
    · refine ⟨dc, [.dc dc, .ce .low] ++ (bs.take k).map .tx, bs[k], (bs.drop (k + 1)).map .tx ++ [.ce .high] ++ framesEvents fs,
        ?_, ?_, ?_⟩
      · rw [sendFrames, sendFrame_stalls hb h hlt]; rfl
      · have hs : bs.map Event.tx = (bs.take k).map Event.tx ++ .tx bs[k] :: (bs.drop (k + 1)).map Event.tx := by
          rw [← List.map_cons, ← List.map_append, List.getElem_cons_drop, List.take_append_drop]
        simp only [framesEvents_cons, frameEvents, hs]
        simp only [List.append_assoc, List.cons_append]
      · rw [sentBytes_append, sentBytes_tx]
        simp [sentBytes, Nat.min_eq_left hlt.le]
    · have ha : s.transport.accepts bs.length = true := by rw [h]; simp [Transport.accepts]; omega
      rw [framesBytes_cons] at hk
      obtain ⟨dc', sent, b, rest, h1, h2, h3⟩ := ih (s := afterFrame dc bs s) (k := k - bs.length) hb
        (by rw [afterFrame_transport, h]; rfl) (by simp only at hk; omega)
      refine ⟨dc', frameEvents dc bs ++ sent, b, rest, ?_, ?_, ?_⟩
      · rw [sendFrames, sendFrame_accepts hb ha, thenDo_next, h1]; simp [afterFrame]
      · rw [framesEvents_cons, h2]; simp
      · rw [sentBytes_append, sentBytes_frameEvents, List.length_append, h3]; omega

/-- The frames an operation sends, in order, given the framebuffer it starts with; for INIT those after its bus configuration. -/
def framesOf (fb : Memory) : Instr → List (Level × List Byte)
  | .sendcmd byte => [(.low, [byte])]
  | .senddat len payload => [(.high, payload.take len.toNat)]
  | .setmode mode => if isMode mode then [(.low, [displayControlByte mode])] else []
  | .setcon value =>
    if Config.setconBracket then
      [(.low, [functionSetByte .extended]), (.low, [vopByte (clampContrast value)]), (.low, [functionSetByte .basic])]
    else [(.low, [vopByte (clampContrast value)])]
  | .setcur x y =>
    if Config.width ≤ x.toNat ∨ Config.height ≤ y.toNat then [] else [(.low, [xAddressByte x]), (.low, [yAddressByte y])]
  | .clrbuf => []
  | .pixel _ _ => []
  | .rdbuf => []
  | .line _ _ _ _ => []
  | .rect _ _ _ _ => []
  | .rectf _ _ _ _ => []
  | .tri _ _ _ _ _ _ => []
  | .trif _ _ _ _ _ _ => []
  | .circ _ _ _ => []
  | .circf _ _ _ => []
  | .init =>
    ((bringUpBytes Config.vopInit Config.biasInit).map fun b => (.low, [b])) ++ List.replicate Config.fbSize (.high, [0x00])
  | .update => [(.low, [xAddressByte 0]), (.low, [yAddressByte 0]), (.high, fb.bytes)]
  | .clrscr => List.replicate Config.fbSize (.high, [0x00])
  | .functionSet h => [(.low, [functionSetByte h])]
  | .displayControl mode => [(.low, [displayControlByte mode.bits])]
  | .xAddressSet x => [(.low, [xAddressByte (x.setWidth 8)])]
  | .yAddressSet y => [(.low, [yAddressByte (y.setWidth 8)])]
  | .vopSet v => [(.low, [vopByte (v.setWidth 8)])]
  | .temperatureControl t => [(.low, [temperatureByte (t.setWidth 8)])]
  | .biasSystem b => [(.low, [biasByte (b.setWidth 8)])]

theorem framesBytes_append (fs gs : List (Level × List Byte)) : framesBytes (fs ++ gs) = framesBytes fs + framesBytes gs := by
  simp [framesBytes]

theorem framesBytes_zeroFrames (n : Nat) : framesBytes (List.replicate n (.high, [0x00])) = n := by simp [framesBytes]

/-- The bytes of the frames are the bytes the transport must complete. -/
theorem framesBytes_framesOf (fb : Memory) (i : Instr) : framesBytes (framesOf fb i) = bytesSent i := by
  cases i with
  | senddat len payload => simp [framesOf, framesBytes, bytesSent]
  | setmode mode => simp only [framesOf, bytesSent]; split <;> rfl
  | setcon value => simp only [framesOf, bytesSent]; split <;> rfl
  | setcur x y => simp only [framesOf, bytesSent]; split <;> rfl
  | update => simp [framesOf, framesBytes, bytesSent, Memory.bytes_length, Config.fbSize]
  | clrscr => exact framesBytes_zeroFrames _
  | init =>
    rw [framesOf, bytesSent, framesBytes_append, framesBytes_zeroFrames]
    rfl
  | _ => rfl

/-- An operation that sends a frame without configuring the bus is its frames and nothing else. -/
theorem exec_eq_sendFrames {i : Instr} (h : sendsFrame i = true) (s : State) : exec i s = sendFrames (framesOf s.fb i) s := by
  cases i with
  | setmode mode =>
    rw [exec_setmode, framesOf, if_pos (show isMode mode = true from h), if_pos (show isMode mode = true from h)]
    exact cmd_eq_sendFrames _ _
  | setcon value =>
    rw [exec_setcon, setContrast, framesOf]
    cases Config.setconBracket
    · exact (congrArg (thenDo · _) (cmd_eq_sendFrame _ _))
    · simp only [cmdIf, if_true, sendFrames, cmd_eq_sendFrame, thenDo_next_right]
  | setcur x y =>
    rw [exec_setcur, setCursor, framesOf]
    split
    · rfl
    · simp only [sendFrames, cmd_eq_sendFrame, funext (cmd_eq_sendFrame _), thenDo_next_right]
  | update =>
    rw [exec_update, setCursor, framesOf, if_neg (by decide)]
    simp only [sendFrames, cmd_eq_sendFrame, funext (cmd_eq_sendFrame _), funext (data_eq_sendFrame _), thenDo_next_right,
      thenDo_assoc]
  | clrscr => exact zeroFrames_eq_sendFrames _ _
  | senddat len payload => exact data_eq_sendFrames _ _
  | _ => first | exact absurd h Bool.false_ne_true | exact cmd_eq_sendFrames _ _

/-- INIT: the reset pulse and the bus configuration, the bring-up frames, the framebuffer cleared, the zero frames (R151). -/
theorem exec_init_eq_sendFrames (s : State) :
    exec .init s =
      thenDo
        (sendFrames ((bringUpBytes Config.vopInit Config.biasInit).map fun b => (.low, [b]))
          (configureBus Config.cpol Config.cpha (resetPulse s)))
        (fun t => sendFrames (List.replicate Config.fbSize (.high, [0x00])) { t with fb := clearBuffer t.fb }) := by
  rw [exec_init, bringUp, cmds_eq_sendFrames]
  exact congrArg _ (funext fun t => zeroFrames_eq_sendFrames _ _)

end Sys2Proof.Machine
end

