-- ==== Sys2Proof/Laws/PerInstr.lean ====
section
/-! SUPPORT. Statements for all instructions as terms, one lemma for each constructor. -/

namespace Sys2Proof.Laws

/-- A host operation is encoded in as many bytes as its packet has (R63); a controller command in exactly one byte (R67). -/
def EncodedLength.Statement (i : Instr) : Prop :=
  i.wf = true → (encode i).length = if i.isHost then packetLength i else 1

theorem EncodedLength.sendcmd (byte : Byte) : EncodedLength.Statement (.sendcmd byte) := fun _ => rfl
theorem EncodedLength.senddat (len : BitVec 16) (payload : List Byte) : EncodedLength.Statement (.senddat len payload) := by
  intro h
  simp only [Instr.wf, beq_iff_eq] at h
  simp [encode, senddatLenBytes, Instr.isHost, packetLength, h]
  omega
theorem EncodedLength.setmode (mode : Byte) : EncodedLength.Statement (.setmode mode) := fun _ => rfl
theorem EncodedLength.setcon (value : Byte) : EncodedLength.Statement (.setcon value) := fun _ => rfl
theorem EncodedLength.setcur (x y : Byte) : EncodedLength.Statement (.setcur x y) := fun _ => rfl
theorem EncodedLength.clrbuf : EncodedLength.Statement (.clrbuf) := fun _ => rfl
theorem EncodedLength.pixel (x y : Byte) : EncodedLength.Statement (.pixel x y) := fun _ => rfl
theorem EncodedLength.rdbuf : EncodedLength.Statement (.rdbuf) := fun _ => rfl
theorem EncodedLength.line (x0 y0 x1 y1 : Byte) : EncodedLength.Statement (.line x0 y0 x1 y1) := fun _ => rfl
theorem EncodedLength.rect (x y w h : Byte) : EncodedLength.Statement (.rect x y w h) := fun _ => rfl
theorem EncodedLength.rectf (x y w h : Byte) : EncodedLength.Statement (.rectf x y w h) := fun _ => rfl
theorem EncodedLength.tri (x0 y0 x1 y1 x2 y2 : Byte) : EncodedLength.Statement (.tri x0 y0 x1 y1 x2 y2) := fun _ => rfl
theorem EncodedLength.trif (x0 y0 x1 y1 x2 y2 : Byte) : EncodedLength.Statement (.trif x0 y0 x1 y1 x2 y2) := fun _ => rfl
theorem EncodedLength.circ (x0 y0 r : Byte) : EncodedLength.Statement (.circ x0 y0 r) := fun _ => rfl
theorem EncodedLength.circf (x0 y0 r : Byte) : EncodedLength.Statement (.circf x0 y0 r) := fun _ => rfl
theorem EncodedLength.init : EncodedLength.Statement (.init) := fun _ => rfl
theorem EncodedLength.update : EncodedLength.Statement (.update) := fun _ => rfl
theorem EncodedLength.clrscr : EncodedLength.Statement (.clrscr) := fun _ => rfl
theorem EncodedLength.functionSet (h : InstrSet) : EncodedLength.Statement (.functionSet h) := fun _ => rfl
theorem EncodedLength.displayControl (mode : DisplayMode) : EncodedLength.Statement (.displayControl mode) := fun _ => rfl
theorem EncodedLength.xAddressSet (x : BitVec 7) : EncodedLength.Statement (.xAddressSet x) := fun _ => rfl
theorem EncodedLength.yAddressSet (y : BitVec 6) : EncodedLength.Statement (.yAddressSet y) := fun _ => rfl
theorem EncodedLength.vopSet (v : BitVec 7) : EncodedLength.Statement (.vopSet v) := fun _ => rfl
theorem EncodedLength.temperatureControl (t : BitVec 2) : EncodedLength.Statement (.temperatureControl t) := fun _ => rfl
theorem EncodedLength.biasSystem (b : BitVec 3) : EncodedLength.Statement (.biasSystem b) := fun _ => rfl

end Sys2Proof.Laws
end

