-- ==== Sys2Proof/Laws/Trace.lean ====
section
/-! SUPPORT. How the readings of a trace (Machine/Trace.lean) grow when events are appended: one lemma for each reading, and
the frame view of one complete frame. -/

namespace Sys2Proof.Machine

/-! ### The frame view -/

theorem scanFrames_append (t u : List Event) : scanFrames (t ++ u) = u.foldl FrameScan.event (scanFrames t) := by
  simp [scanFrames]

/-- The bytes of a transfer all go into the open frame. -/
theorem foldl_tx_open (bs : List Byte) (r : FrameScan) (f : Frame) (h : r.current = some f) :
    (bs.map Event.tx).foldl FrameScan.event r = { r with current := some { f with bytes := f.bytes ++ bs } } := by
  induction bs generalizing r f with
  | nil => simp [← h]
  | cons b bs ih =>
    rw [List.map_cons, List.foldl_cons, ih _ { f with bytes := f.bytes ++ [b] } (by simp [FrameScan.event, h])]
    simp [FrameScan.event, h]

/-- A complete frame after a trace with no open frame adds exactly itself to the frame view (R29). -/
theorem foldl_frameEvents (l : Level) (bs : List Byte) (r : FrameScan) (h : r.current = none) :
    (frameEvents l bs).foldl FrameScan.event r =
      { r with dc := some l, complete := r.complete ++ [{ dc := some l, bytes := bs }] } := by
  simp only [frameEvents, List.foldl_append, List.foldl_cons, List.foldl_nil, FrameScan.event, h]
  rw [foldl_tx_open bs _ { dc := some l, bytes := [] } rfl]
  simp [← h]

theorem framesClosed_iff (t : List Event) :
    framesClosed t = true ↔ (scanFrames t).tidy = true ∧ (scanFrames t).current = none := by
  simp [framesClosed]

/-- The frame view after one more complete frame. -/
theorem frames_frameEvents {t : List Event} (h : framesClosed t = true) (l : Level) (bs : List Byte) :
    frames (t ++ frameEvents l bs) = frames t ++ [{ dc := some l, bytes := bs }] := by
  rw [frames, scanFrames_append, foldl_frameEvents l bs _ ((framesClosed_iff t).1 h).2]
  rfl

/-- A complete frame leaves no frame open. -/
theorem framesClosed_frameEvents {t : List Event} (h : framesClosed t = true) (l : Level) (bs : List Byte) :
    framesClosed (t ++ frameEvents l bs) = true := by
  obtain ⟨h1, h2⟩ := (framesClosed_iff t).1 h
  rw [framesClosed_iff, scanFrames_append, foldl_frameEvents l bs _ h2]
  exact ⟨h1, h2⟩

/-! ### The last levels and the bus configuration -/

/-- The bytes of a transfer drive no line. -/
theorem foldl_tx_level (g : Event → Option Level) (hg : ∀ b, g (.tx b) = none) (bs : List Byte) (l : Option Level) :
    (bs.map Event.tx).foldl (fun l e => (g e).or l) l = l := by
  induction bs with
  | nil => rfl
  | cons b bs ih => simpa [hg] using ih

/-- A complete frame leaves chip enable high. -/
theorem lastCe_frameEvents (t : List Event) (l : Level) (bs : List Byte) :
    lastCe (t ++ frameEvents l bs) = some .high := by
  simp only [lastCe, frameEvents, List.foldl_append, foldl_tx_level Event.ceLevel fun _ => rfl]
  rfl

/-- A complete frame leaves command/data select at its own level. -/
theorem lastDc_frameEvents (t : List Event) (l : Level) (bs : List Byte) :
    lastDc (t ++ frameEvents l bs) = some l := by
  simp only [lastDc, frameEvents, List.foldl_append, foldl_tx_level Event.dcLevel fun _ => rfl]
  rfl

/-- A frame does not touch the reset line. -/
theorem lastRst_frameEvents (t : List Event) (l : Level) (bs : List Byte) :
    lastRst (t ++ frameEvents l bs) = lastRst t := by
  simp only [lastRst, frameEvents, List.foldl_append, foldl_tx_level Event.rstLevel fun _ => rfl]
  rfl

/-- A frame does not configure the bus. -/
theorem busConfigured_frameEvents (t : List Event) (l : Level) (bs : List Byte) :
    busConfigured (t ++ frameEvents l bs) = busConfigured t := by
  have h : (bs.map Event.tx).any Event.isBusCfg = false := by induction bs <;> simp_all [Event.isBusCfg]
  simp [busConfigured, frameEvents, Event.isBusCfg, h]

end Sys2Proof.Machine
end

