-- ==== Sys2Proof/Machine/Assembler.lean ====
section
/-! DEFINITION. The assembly notation of spec/30_encoding.md R69 and its pseudo-operations R70 (D28). The machine does not
use it: it is how a program text becomes packets. Log entry 24. -/

namespace Sys2Proof.Machine

/-- A blank between tokens: space or tab. -/
def isBlank (c : Char) : Bool := c == ' ' || c == '\t'

/-- Text without the blanks at its two ends. -/
def trimBlanks (cs : List Char) : List Char := ((cs.dropWhile isBlank).reverse.dropWhile isBlank).reverse

/-- The pieces of a text between commas. -/
def splitCommas : List Char → List (List Char)
  | [] => [[]]
  | c :: cs =>
    match splitCommas cs with
    | [] => [[c]]
    | piece :: pieces => if c = ',' then [] :: piece :: pieces else (c :: piece) :: pieces

/-- The value of a decimal digit. -/
def decDigit (c : Char) : Option Nat := if '0' ≤ c ∧ c ≤ '9' then some (c.toNat - '0'.toNat) else none

/-- The value of a hexadecimal digit, of either case. -/
def hexDigit (c : Char) : Option Nat :=
  if 'a' ≤ c ∧ c ≤ 'f' then some (c.toNat - 'a'.toNat + 10)
  else if 'A' ≤ c ∧ c ≤ 'F' then some (c.toNat - 'A'.toNat + 10)
  else decDigit c

/-- A number from its digits, most significant first; no digits are no number. -/
def digitsValue (base : Nat) (digit : Char → Option Nat) (cs : List Char) : Option Nat :=
  if cs.isEmpty then none
  else cs.foldl (fun acc c => acc.bind fun n => (digit c).map fun d => n * base + d) (some 0)

/-- "each a decimal or `0x` hexadecimal number" (R69). -/
def numberValue (cs : List Char) : Option Nat :=
  match cs with
  | '0' :: 'x' :: hex => digitsValue 16 hexDigit hex
  | dec => digitsValue 10 decDigit dec

/-- The symbolic constants for SETMODE (R69). -/
def modeConstant (name : String) : Option Nat :=
  match name with
  | "BLANK" => some 0x00
  | "NORMAL" => some 0x04
  | "ALL_ON" => some 0x01
  | "INVERTED" => some 0x05
  | _ => none

/-- The source's own names, accepted as aliases (R69); any other name stands for itself. -/
def canonicalMnemonic (name : String) : String :=
  match name with
  | "send_command" => "SENDCMD"
  | "send_data" => "SENDDAT"
  | "set_display_mode" => "SETMODE"
  | "set_contrast" => "SETCON"
  | "set_cursor" => "SETCUR"
  | "clear" => "CLRBUF"
  | "clear_buffer" => "CLRBUF"
  | "set_pixel" => "PIXEL"
  | "draw_pixel" => "PIXEL"
  | "raw_bytes" => "RDBUF"
  | "initialize" => "INIT"
  | "update" => "UPDATE"
  | "clear_screen" => "CLRSCR"
  | other => other

/-- One operand: a number, or for SETMODE a symbolic constant (R69). -/
def operandValue (mnemonic : String) (cs : List Char) : Option Nat :=
  match numberValue cs with
  | some n => some n
  | none => if mnemonic = "SETMODE" then modeConstant (String.ofList cs) else none

/-- A number in 0..255 as an operand byte (R69). -/
def operandByte (n : Nat) : Option Byte := if n < 256 then some (BitVec.ofNat 8 n) else none

/-- The trailing `fill` operand of a pseudo-operation: 0 gives the outline, 1 the filled form, any other value is rejected (R70). -/
def withFill (fill : Byte) (outline filled : Instr) : Option Instr :=
  if fill = 0 then some outline else if fill = 1 then some filled else none

/-- The operation of a mnemonic and its operand bytes, the pseudo-operations included (R69, R70). -/
def assembleBytes (mnemonic : String) (operands : List Byte) : Option Instr :=
  match mnemonic, operands with
  | "SENDCMD", [b] => some (.sendcmd b)
  | "SETMODE", [m] => some (.setmode m)
  | "SETCON", [v] => some (.setcon v)
  | "SETCUR", [x, y] => some (.setcur x y)
  | "CLRBUF", [] => some .clrbuf
  | "PIXEL", [x, y] => some (.pixel x y)
  | "RDBUF", [] => some .rdbuf
  | "LINE", [x0, y0, x1, y1] => some (.line x0 y0 x1 y1)
  | "RECT", [x, y, w, h] => some (.rect x y w h)
  | "RECT", [x, y, w, h, fill] => withFill fill (.rect x y w h) (.rectf x y w h)
  | "RECTF", [x, y, w, h] => some (.rectf x y w h)
  | "TRI", [x0, y0, x1, y1, x2, y2] => some (.tri x0 y0 x1 y1 x2 y2)
  | "TRI", [x0, y0, x1, y1, x2, y2, fill] => withFill fill (.tri x0 y0 x1 y1 x2 y2) (.trif x0 y0 x1 y1 x2 y2)
  | "TRIF", [x0, y0, x1, y1, x2, y2] => some (.trif x0 y0 x1 y1 x2 y2)
  | "CIRC", [x0, y0, r] => some (.circ x0 y0 r)
  | "CIRC", [x0, y0, r, fill] => withFill fill (.circ x0 y0 r) (.circf x0 y0 r)
  | "CIRCF", [x0, y0, r] => some (.circf x0 y0 r)
  | "INIT", [] => some .init
  | "UPDATE", [] => some .update
  | "CLRSCR", [] => some .clrscr
  | _, _ => none

/-- The operation of a mnemonic and its operands. "`SENDDAT len, b0, b1, ...` lists `len` (0..65535) and then exactly `len`
payload bytes" (R69). -/
def assemble (mnemonic : String) (operands : List Nat) : Option Instr :=
  if mnemonic = "SENDDAT" then
    match operands with
    | [] => none
    | len :: payload =>
      if len < 65536 ∧ payload.length = len then
        (payload.mapM operandByte).map (.senddat (BitVec.ofNat 16 len))
      else none
  else (operands.mapM operandByte).bind (assembleBytes mnemonic)

/-- One line: "`MNEMONIC operand, operand, ...`"; "`;` starts a comment" (R69). A line with nothing before its comment holds
no operation; a line that is no operation of the notation is an error, `none`. -/
def assembleLine (line : List Char) : Option (List Instr) :=
  match trimBlanks (line.takeWhile (· ≠ ';')) with
  | [] => some []
  | text =>
    let mnemonic := canonicalMnemonic (String.ofList (text.takeWhile fun c => !isBlank c))
    match trimBlanks (text.dropWhile fun c => !isBlank c) with
    | [] => (assemble mnemonic []).map fun i => [i]
    | rest =>
      (((splitCommas rest).map trimBlanks).mapM (operandValue mnemonic)).bind fun ns =>
        (assemble mnemonic ns).map fun i => [i]

/-- A program text, "one operation per line" (R69), as the packets of its operations in order (R72). -/
def assembleProgram (lines : List String) : Option (List Byte) :=
  (lines.mapM fun l => assembleLine l.toList).map fun is => encodeAll is.flatten

end Sys2Proof.Machine
end

