-- ==== Sys2Proof/Machine/Flags.lean ====
section
/-! DEFINITION. FBR has no status flags, condition codes, error codes or predicates (spec/10_state.md R23): no operation
computes one, and there is nothing for one to be computed into. The one thing the spec calls a flag is a bit of the opcode
byte: "for opcodes 0x12 to 0x17, bit 0 is the fill flag (0 = outline, 1 = filled) and bits 7:1 select the shape"
(spec/30_encoding.md R61, D4). -/

namespace Sys2Proof.Machine

/-- Whether an opcode byte carries a fill flag (R61). -/
def hasFillFlag (op : Byte) : Bool := decide (0x12 ≤ op.toNat) && decide (op.toNat ≤ 0x17)

/-- The fill flag of a shape's opcode byte: false outline, true filled (R61). -/
def fillFlag (op : Byte) : Bool := op.getLsbD 0

/-- The shape selector of a shape's opcode byte, bits 7:1 (R61). -/
def shapeSelector (op : Byte) : BitVec 7 := op.extractLsb' 1 7

/-- The `fill` argument of the source's rectangle, triangle and circle, of the six operations that have one (R61, R62). -/
def fillOf : Instr → Option Bool
  | .sendcmd _ => none
  | .senddat _ _ => none
  | .setmode _ => none
  | .setcon _ => none
  | .setcur _ _ => none
  | .clrbuf => none
  | .pixel _ _ => none
  | .rdbuf => none
  | .line _ _ _ _ => none
  | .rect _ _ _ _ => some false
  | .rectf _ _ _ _ => some true
  | .tri _ _ _ _ _ _ => some false
  | .trif _ _ _ _ _ _ => some true
  | .circ _ _ _ => some false
  | .circf _ _ _ => some true
  | .init => none
  | .update => none
  | .clrscr => none
  | .functionSet _ => none
  | .displayControl _ => none
  | .xAddressSet _ => none
  | .yAddressSet _ => none
  | .vopSet _ => none
  | .temperatureControl _ => none
  | .biasSystem _ => none

end Sys2Proof.Machine
end

