-- ==== Sys2Proof/Tests/Slice0.lean ====
section
/-! SUPPORT. The model's own tests: ill-formed terms, words written out from the spec's tables, vectors of
spec/95_test_vectors.md (their ids stand in the docstrings), and a witness for every statement with hypotheses. -/

namespace Sys2Proof.Tests

open Sys2Proof Sys2Proof.Machine

/-! ### Ill-formed terms (R61, R30) -/

theorem test_wf_senddat_length_must_match :
    (Instr.senddat 2 [0xFF]).wf = false ∧ (Instr.senddat 0 [0x00]).wf = false ∧ (Instr.senddat 2 [0xFF, 0x00]).wf = true := by
  decide

theorem test_wf_xAddressSet_column : (Instr.xAddressSet 84).wf = false ∧ (Instr.xAddressSet 83).wf = true := by decide

theorem test_wf_yAddressSet_field : (Instr.yAddressSet 48).wf = false ∧ (Instr.yAddressSet 47).wf = true := by decide

/-! ### Words written out from the encodings (R61, R62, R67) -/

theorem test_decode_protocol :
    decode [0b00000001, 0b00100001] = .ok (.sendcmd 0x21, []) ∧
    decode [0b00000010, 0b00000010, 0b00000000, 0b11111111, 0b00000000] = .ok (.senddat 2 [0xFF, 0x00], []) ∧
    decode [0b00000011, 0b00000101] = .ok (.setmode 5, []) ∧
    decode [0b00000100, 0b11001000] = .ok (.setcon 200, []) ∧
    decode [0b00000101, 0b01010011, 0b00000101] = .ok (.setcur 83 5, []) := by decide

theorem test_decode_framebuffer :
    decode [0b00001000] = .ok (.clrbuf, []) ∧
    decode [0b00001001, 0b00001010, 0b00010100] = .ok (.pixel 10 20, []) ∧
    decode [0b00001010, 0b00001000] = .ok (.rdbuf, [0x08]) := by decide

/-- V-E2, V-E3, V-E9. -/
theorem test_decode_rasterizer :
    decode [0b00010000, 0, 0, 5, 2] = .ok (.line 0 0 5 2, []) ∧
    decode [0b00010010, 2, 3, 4, 5] = .ok (.rect 2 3 4 5, []) ∧
    decode [0b00010011, 2, 3, 4, 5] = .ok (.rectf 2 3 4 5, []) ∧
    decode [0b00010100, 2, 1, 0, 5, 6, 7] = .ok (.tri 2 1 0 5 6 7, []) ∧
    decode [0b00010101, 2, 1, 0, 5, 6, 7] = .ok (.trif 2 1 0 5 6 7, []) ∧
    decode [0b00010110, 0x2A, 0x18, 0x0A] = .ok (.circ 42 24 10, []) ∧
    decode [0b00010111, 0x2A, 0x18, 0x0A] = .ok (.circf 42 24 10, []) := by decide

theorem test_decode_session :
    decode [0b00100000] = .ok (.init, []) ∧ decode [0b00100001] = .ok (.update, []) ∧
    decode [0b00100010] = .ok (.clrscr, []) := by decide

/-- The bytes of R67's layouts, the basic set's `1XXXXXXX` and the extended set's `1VVVVVVV` among them. -/
theorem test_decode_wire :
    decodeWire .basic 0b00100001 = some (.functionSet .extended) ∧
    decodeWire .extended 0b00100000 = some (.functionSet .basic) ∧
    decodeWire .basic 0b00001000 = some (.displayControl .blank) ∧
    decodeWire .basic 0b00001100 = some (.displayControl .normal) ∧
    decodeWire .basic 0b00001001 = some (.displayControl .allOn) ∧
    decodeWire .basic 0b00001101 = some (.displayControl .inverted) ∧
    decodeWire .basic 0b11010011 = some (.xAddressSet 83) ∧
    decodeWire .basic 0b01101111 = some (.yAddressSet 47) ∧
    decodeWire .extended 0b11010100 = some (.vopSet 84) ∧
    decodeWire .extended 0b00000110 = some (.temperatureControl 2) ∧
    decodeWire .extended 0b00010100 = some (.biasSystem 4) := by decide

theorem test_decode_wire_refuses :
    decodeWire .basic 0b11010100 = none ∧ decodeWire .basic 0b01110000 = none ∧ decodeWire .basic 0b00000100 = none ∧
    decodeWire .extended 0b00001100 = none ∧ decodeWire .basic 0b00001010 = none := by decide

/-- V-E6. -/
theorem test_decode_reserved :
    decode [0x00] = .error (.reservedOpcode 0x00) ∧ decode [0x06] = .error (.reservedOpcode 0x06) ∧
    decode [0x11] = .error (.reservedOpcode 0x11) ∧ decode [0x18] = .error (.reservedOpcode 0x18) ∧
    decode [0x23] = .error (.reservedOpcode 0x23) ∧ decode [0xFF] = .error (.reservedOpcode 0xFF) := by decide

/-- V-E7, V-E8. -/
theorem test_decode_truncated :
    decode [0x10, 0, 0, 5] = .error .truncated ∧ decode [0x02, 0x05] = .error .truncated ∧
    decode [0x02, 0x05, 0x00, 0xAA] = .error .truncated := by decide

/-- V-E4, V-E5: the low length byte comes first. -/
theorem test_senddat_length_bytes : senddatLen 0x02 0x00 = 2 ∧ senddatLen 0xF8 0x01 = 504 := by decide

/-- The table word's first byte is the opcode; a SENDDAT word without length bytes has length 0. -/
theorem test_decodeTableWord :
    decodeTableWord 40 0x0205000010 = some (.line 0 0 5 2) ∧ decodeTableWord 8 0x02 = some (.senddat 0 []) ∧
    decodeTableWord 16 0x2101 = some (.sendcmd 0x21) ∧ decodeTableWord 8 0x40 = none := by decide

/-- R61: bit 0 of the opcodes 0x12 to 0x17 is the fill flag, bits 7:1 the shape. -/
theorem test_fill_flag :
    (∀ i ∈ [Instr.rect 1 2 3 4, .rectf 1 2 3 4, .tri 1 2 3 4 5 6, .trif 1 2 3 4 5 6, .circ 1 2 3, .circf 1 2 3],
      ∃ op ∈ (encode i).head?, hasFillFlag op = true ∧ fillOf i = some (fillFlag op)) ∧
    shapeSelector 0x12 = shapeSelector 0x13 ∧ shapeSelector 0x14 = shapeSelector 0x15 ∧
    shapeSelector 0x16 = shapeSelector 0x17 ∧ shapeSelector 0x12 ≠ shapeSelector 0x14 := by decide

/-! ### States and readers of the tests -/

/-- A small state with the bus configured, the invariant holding, and anything in the three inputs. -/
def ready (fb : Memory) (cmd : List Byte) (transport : Transport) : State :=
  { fb := fb, rst := some .high, ce := some .high, dc := some .low, busCfg := true, cp := 0,
    trace := [.rst .low, .wait1us, .rst .high, .busCfg 4000000 .msbFirst true true, .dc .low, .ce .low, .tx 0x0C, .ce .high],
    hostOut := [], cmd := cmd, transport := transport }

/-- The same before INIT. -/
def fresh (fb : Memory) (cmd : List Byte) : State := { State.reset with fb := fb, cmd := cmd }

/-- Something of the next state an outcome holds. -/
def nextOf {α : Type} (r : Result) (f : State → α) : Option α :=
  match r with
  | .next t => some (f t)
  | .fault _ => none
  | .refused _ => none

/-- Something of the stuck state an outcome holds. -/
def stuckOf {α : Type} (r : Result) (f : State → α) : Option α :=
  match r with
  | .fault (.transferNeverCompletes t) => some (f t)
  | .next _ => none
  | .refused _ => none

/-- The framebuffer after an operation on an otherwise fresh state. -/
def fbAfter (i : Instr) (m : Memory) : Option Memory := nextOf (exec i (fresh m [])) State.fb

/-- The frames an operation adds to the trace. -/
def framesOf (r : Result) : Option (List Frame) := nextOf r fun t => (frames t.trace).drop 1

theorem ready_inv {fb : Memory} {cmd : List Byte} {transport : Transport} (h : fb.wf = true) :
    Inv (ready fb cmd transport) where
  memory := h
  pointer := Nat.zero_le _
  framed := rfl
  rstLast := rfl
  ceLast := rfl
  dcLast := rfl
  bus := rfl
  idle := nofun
  readouts := rfl

theorem fresh_inv {fb : Memory} {cmd : List Byte} (h : fb.wf = true) : Inv (fresh fb cmd) where
  memory := h
  pointer := Nat.zero_le _
  framed := rfl
  rstLast := rfl
  ceLast := rfl
  dcLast := rfl
  bus := rfl
  idle := nofun
  readouts := rfl

/-! ### Framebuffer and rasterizer vectors -/

/-- T1, V-F2. -/
theorem test_pixel : fbAfter (.pixel 10 20) [(178, 0x81)] = some [(178, 0x91)] ∧ fbAfter (.pixel 83 47) [] = some [(503, 0x80)] := by
  decide +kernel

/-- V-F7: nothing outside the surface. -/
theorem test_pixel_outside :
    fbAfter (.pixel 84 0) [(5, 0x42)] = some [(5, 0x42)] ∧ fbAfter (.pixel 83 48) [(5, 0x42)] = some [(5, 0x42)] ∧
    fbAfter (.pixel 255 255) [(5, 0x42)] = some [(5, 0x42)] := by decide +kernel

/-- T3, V-F10. -/
theorem test_clrbuf : fbAfter .clrbuf [(0, 0xFF), (178, 0x91), (503, 0x80)] = some [] := by decide +kernel

/-- V-F8: the readout is the buffer in index order. -/
theorem test_rdbuf :
    nextOf (exec .rdbuf (fresh [(0, 0x01), (503, 0x80)] [])) (fun t => (t.hostOut.length, t.hostOut.head?, t.hostOut.getLast?)) =
      some (504, some 0x01, some 0x80) := by decide +kernel

/-- V-L2. -/
theorem test_line :
    fbAfter (.line 0 0 5 2) [] = some [(0, 0x01), (1, 0x01), (2, 0x02), (3, 0x02), (4, 0x04), (5, 0x04)] := by decide +kernel

/-- V-L8, V-L9: the direction matters. -/
theorem test_line_direction :
    fbAfter (.line 0 0 1 2) [] = some [(0, 0x03), (1, 0x04)] ∧ fbAfter (.line 1 2 0 0) [] = some [(0, 0x01), (1, 0x06)] := by
  decide +kernel

/-- V-R2, V-R16: the outline; a zero size taken literally. -/
theorem test_rect :
    fbAfter (.rect 2 3 4 3) [] = some [(2, 0x38), (3, 0x28), (4, 0x28), (5, 0x38)] ∧
    fbAfter (.rect 0 0 0 0) [] = some [(0, 0x01)] := by decide +kernel

/-- V-R9: a corner outside. -/
theorem test_rect_corner_outside : fbAfter (.rect 0 48 5 5) [(9, 1)] = some [(9, 1)] := by
  decide +kernel

/-- V-R12: width 0 taken literally. -/
theorem test_rectf : fbAfter (.rectf 5 5 0 3) [] = some [(4, 0xE0), (5, 0xE0)] := by decide +kernel

/-- V-R9, V-R11. -/
theorem test_rectf_nothing : fbAfter (.rectf 84 0 5 5) [(9, 1)] = some [(9, 1)] ∧ fbAfter (.rectf 5 5 3 0) [] = some [] := by
  decide +kernel

/-- V-T1. -/
theorem test_tri :
    fbAfter (.tri 2 1 0 5 6 7) [] =
      some [(0, 0x20), (1, 0x38), (2, 0x46), (3, 0x4C), (4, 0x50), (5, 0xE0), (6, 0x80)] := by decide +kernel

/-- V-T4, with `TriSpanDefault`. -/
theorem test_trif_default_span :
    plotAll (trifPoints (triSpanDefault 2 1 0 5 6 7) 1 5 7) [] =
      [(0, 0x20), (1, 0x38), (2, 0x3E), (3, 0x78), (4, 0x70), (5, 0x40), (6, 0x80)] := by decide +kernel

/-- The checks of `Interp` under V-T13. -/
theorem test_interp :
    interp 2 1 0 5 3 = 1 ∧ interp 2 1 6 7 4 = 4 ∧ interp 0 5 6 7 6 = 3 ∧ interp 2 1 0 5 2 = 2 ∧ interp 3 3 8 3 3 = 3 := by
  decide

/-- V-C3, V-C6. -/
theorem test_circ :
    fbAfter (.circ 10 10 3) [] =
        some [(9, 0x80), (10, 0x80), (11, 0x80), (91, 0x0E), (92, 0x11), (93, 0x20), (94, 0x20), (95, 0x20), (96, 0x11), (97, 0x0E)] ∧
      fbAfter (.circ 0 0 3) [] = some [(0, 0x08), (1, 0x08), (2, 0x04), (3, 0x03)] := by decide +kernel

/-- V-C13. -/
theorem test_circf :
    fbAfter (.circf 10 10 3) [] =
      some [(9, 0x80), (10, 0x80), (11, 0x80), (91, 0x0E), (92, 0x1F), (93, 0x3F), (94, 0x3F), (95, 0x3F), (96, 0x1F), (97, 0x0E)] := by
  decide +kernel

/-- The step table of V-C5. -/
theorem test_circle_loop : (circleLoop 5).map (fun c => (c.x, c.y, c.f)) = [(1, 5, -1), (2, 5, 4), (3, 4, 3), (4, 3, 6)] := by
  decide

/-! ### Protocol and session vectors -/

/-- V-P1. -/
theorem test_sendcmd :
    nextOf (exec (.sendcmd 0x21) (ready [] [] .live)) (fun t => t.trace.drop 8) =
      some [.dc .low, .ce .low, .tx 0x21, .ce .high] := by decide

/-- V-P2, V-P3. -/
theorem test_senddat :
    nextOf (exec (.senddat 2 [0xFF, 0x00]) (ready [] [] .live)) (fun t => t.trace.drop 8) =
        some [.dc .high, .ce .low, .tx 0xFF, .tx 0x00, .ce .high] ∧
      nextOf (exec (.senddat 0 []) (ready [] [] .live)) (fun t => t.trace.drop 8) = some [.dc .high, .ce .low, .ce .high] := by
  decide

/-- V-P4. -/
theorem test_setmode :
    [0x00, 0x04, 0x01, 0x05].map (fun m => framesOf (exec (.setmode m) (ready [] [] .live))) =
      [some [commandFrame 0x08], some [commandFrame 0x0C], some [commandFrame 0x09], some [commandFrame 0x0D]] := by decide

/-- V-P5, V-P13. -/
theorem test_setmode_invalid :
    ∀ m ∈ [(0x99 : Byte), 0x0C, 0x02, 0x85, 0xFF], nextOf (exec (.setmode m) (fresh [] [])) State.trace = some [] := by decide

/-- V-P6. -/
theorem test_setcon :
    [0, 63, 127, 128, 200, 255].map (fun v => framesOf (setContrast false v (ready [] [] .live))) =
      [some [commandFrame 0x80], some [commandFrame 0xBF], some [commandFrame 0xFF], some [commandFrame 0xFF],
        some [commandFrame 0xFF], some [commandFrame 0xFF]] := by decide

/-- V-P7. -/
theorem test_setcon_bracket :
    framesOf (setContrast true 64 (ready [] [] .live)) = some [commandFrame 0x21, commandFrame 0xC0, commandFrame 0x20] := by
  decide

/-- V-P9, V-P10, and R166: a SETCUR whose second byte never completes has sent the first, and leaves chip enable low. -/
theorem test_setcur :
    framesOf (exec (.setcur 83 5) (ready [] [] .live)) = some [commandFrame 0xD3, commandFrame 0x45] ∧
      framesOf (exec (.setcur 83 47) (ready [] [] .live)) = some [commandFrame 0xD3, commandFrame 0x6F] ∧
      stuckOf (exec (.setcur 83 5) (ready [] [] (.stallsAfter 1))) (fun t => (t.trace.drop 8, t.ce, t.cp)) =
        some ([.dc .low, .ce .low, .tx 0xD3, .ce .high, .dc .low, .ce .low], some .low, 0) := by decide

/-- V-P11, V-P13. -/
theorem test_setcur_outside :
    nextOf (exec (.setcur 84 0) (fresh [] [])) State.trace = some [] ∧
    nextOf (exec (.setcur 0 48) (fresh [] [])) State.trace = some [] := by decide

/-- The bytes of R67 for the commands and field values that FBR itself forms. -/
theorem test_wire_commands :
    [Instr.functionSet .extended, .displayControl .inverted, .xAddressSet 83, .yAddressSet 47, .vopSet 127,
        .temperatureControl 0, .biasSystem 4].map (fun i => framesOf (exec i (ready [] [] .live))) =
      [some [commandFrame 0x21], some [commandFrame 0x0D], some [commandFrame 0xD3], some [commandFrame 0x6F],
        some [commandFrame 0xFF], some [commandFrame 0x04], some [commandFrame 0x14]] := by decide

/-- V-S1, V-S1b: the six command bytes. -/
theorem test_bring_up_bytes :
    bringUpBytes 0x3F 4 = [0x21, 0xBF, 0x04, 0x14, 0x20, 0x0C] ∧ bringUpBytes 0x40 3 = [0x21, 0xC0, 0x04, 0x13, 0x20, 0x0C] := by
  decide

/-- V-S1: 2044 events, and what INIT leaves. -/
theorem test_init :
    nextOf (bringUp 0x3F 4 false false (fresh [(9, 1)] [])) (fun t => (t.trace.length, t.fb, t.rst, t.dc)) =
      some (2044, [], some .high, some .high) := by
  rw [bringUp, bringUpBytes, cmds_accepts rfl rfl, thenDo_next, clearScreen_eq, zeroFrames_accepts rfl rfl]
  simp [nextOf, zeroFrameEvents_length, cmdEvents, frameEvents, resetPulse, fresh, State.reset]
  exact clearBuffer_eq rfl

/-- V-S2. -/
theorem test_update :
    (framesOf (exec .update (ready [(0, 0x01)] [] .live))) =
      some [commandFrame 0x80, commandFrame 0x40, dataFrame (0x01 :: List.replicate 503 0x00)] := by decide +kernel

/-- V-S3. -/
theorem test_clrscr :
    nextOf (exec .clrscr (ready [(3, 0x08)] [] .live)) (fun t => (t.trace.length, t.fb)) = some (8 + 2016, [(3, 0x08)]) := by
  rw [exec_clrscr, clearScreen_eq, zeroFrames_accepts rfl rfl]
  simp [nextOf, zeroFrameEvents_length, ready]

/-- V-S7, P5. -/
theorem test_update_before_init : nextOf (exec .update (fresh [] [])) State.cp = none := by decide

/-- P1, in the notation of R69: symbols, comments, hexadecimal numbers and aliases. -/
theorem test_assembler :
    assembleProgram ["CLRBUF", "PIXEL 83, 0x2F ; corner", "", "SETMODE INVERTED", "set_contrast 200"] =
      some [0x08, 0x09, 0x53, 0x2F, 0x03, 0x05, 0x04, 0xC8] := by decide +kernel

/-- R70: `fill` picks the form, and any other value of it is an error, as is an operand above 255 (R69). -/
theorem test_assembler_fill :
    assembleLine "RECT 1, 2, 3, 4, 1".toList = some [.rectf 1 2 3 4] ∧ assembleLine "RECT 1, 2, 3, 4, 2".toList = none ∧
    assembleLine "PIXEL 256, 0".toList = none := by decide +kernel

/-- Table words run as the first operation after reset. -/
theorem test_withFetchWord :
    nextOf (step (State.reset.withFetchWord 24 0x2F5309)) (fun t => (t.fb, t.cp)) = some ([(503, 0x80)], 3) := by decide +kernel

/-! ### Witnesses: states and operands that meet the hypotheses of the statements -/

theorem witness_PowerOn : PowerOn (fresh [(0, 0xFF), (503, 0x80)] [0x20]) := ⟨by decide, rfl⟩

theorem witness_StepKeepsTheInvariant :
    Inv (ready [(3, 0x08)] [0x01, 0x21] .live) ∧ ∃ t, step (ready [(3, 0x08)] [0x01, 0x21] .live) = .next t :=
  ⟨ready_inv (by decide), _, rfl⟩

theorem witness_DecodeGivesBackEveryEncodedOperation :
    (Instr.senddat 2 [0xFF, 0x00]).isHost = true ∧ (Instr.senddat 2 [0xFF, 0x00]).wf = true ∧
    (Instr.senddat 0 []).isHost = true ∧ (Instr.senddat 0 []).wf = true := by decide

theorem witness_DecodedBytesAreTheEncoding : decode [0x02, 0x01, 0x00, 0xFF, 0x20] = .ok (.senddat 1 [0xFF], [0x20]) := by decide

theorem witness_WireBytesAndCommandsAgree :
    decodeWire .basic 0xD3 = some (.xAddressSet 83) ∧
    ((Instr.xAddressSet 83).wf = true ∧ (Instr.xAddressSet 83).inSet .basic = true ∧ encode (.xAddressSet 83) = [0xD3]) := by decide

theorem witness_CommandByteIsBasePlusField :
    (83 : Byte).toNat ≤ 83 ∧ (47 : Byte).toNat ≤ 47 ∧ (127 : Byte).toNat ≤ 127 ∧ isMode 0x05 = true ∧ (7 : Byte).toNat ≤ 7 := by decide

/-- One state for each of the three outcomes. -/
theorem witness_StepRunsTheDecodedOperation :
    (0 < [(0x08 : Byte)].length ∧ decode [0x08] = .ok (.clrbuf, []) ∧ ∃ t, exec .clrbuf (fresh [] [0x08]) = .next t) ∧
    (decode [0x01, 0x21] = .ok (.sendcmd 0x21, []) ∧
      ∃ f, exec (.sendcmd 0x21) (ready [] [0x01, 0x21] (.stallsAfter 0)) = .fault f) ∧
    (decode [0x21] = .ok (.update, []) ∧ ∃ r, exec .update (fresh [] [0x21]) = .refused r) :=
  ⟨⟨by decide, by decide, _, rfl⟩, ⟨by decide, _, rfl⟩, ⟨by decide, _, rfl⟩⟩

/-- A reserved opcode at each end of a range, a truncated packet, and a whole one. -/
theorem witness_ReservedAndTruncatedPacketsAreRefused :
    fetch (fresh [] [0x23]) = .error (.reservedOpcode 0x23) ∧ fetch (fresh [] [0x0B]) = .error (.reservedOpcode 0x0B) ∧
    (formatOf 0x09 ≠ none ∧ packetSpan [0x09, 0x01] = some 3 ∧ fetch (fresh [] [0x09, 0x01]) = .error .truncatedPacket) ∧
    (packetSpan [0x02, 0x05] = none ∧ fetch (fresh [] [0x02, 0x05]) = .error .truncatedPacket) ∧
    (formatOf 0x22 ≠ none ∧ packetSpan [0x22] = some 1 ∧ fetch (fresh [] [0x22]) = .ok .clrscr) := by decide

theorem witness_FinishedRunStaysAsItIs : Finished (ready [(3, 0x08)] [] .live) ∧ Finished { fresh [] [0x08] with cp := 1 } :=
  ⟨rfl, rfl⟩

theorem witness_StepAdvancesThePointerByThePacket :
    (∃ t, step (fresh [] [0x09, 0x01, 0x01, 0x08]) = .next t) ∧
    (fresh [] [0x09, 0x01, 0x01, 0x08]).cp ≠ (fresh [] [0x09, 0x01, 0x01, 0x08]).cmd.length := ⟨⟨_, rfl⟩, by decide⟩

theorem witness_LongerStreamRunsTheSamePrefix :
    (fresh [] [0x08]).cp < (fresh [] [0x08]).cmd.length ∧ ∃ t, step (fresh [] [0x08]) = .next t := ⟨by decide, _, rfl⟩

/-- One byte (SENDCMD, a valid SETMODE, a controller command), two (SETCUR), none (an empty SENDDAT): with a transport that
completes just as many. -/
theorem witness_protocol_completion :
    (ready [] [] (.stallsAfter 1)).busCfg = true ∧ (ready [] [] (.stallsAfter 1)).transport.accepts 1 = true ∧
    (ready [] [] (.stallsAfter 2)).transport.accepts 2 = true ∧
    ([] : List Byte).length = (0 : BitVec 16).toNat ∧ (ready [] [] (.stallsAfter 0)).transport.accepts (0 : BitVec 16).toNat = true := by
  decide

theorem witness_SetmodeSendsAValidModeAndIgnoresOthers :
    (((0x05 : Byte) = 0x00 ∨ (0x05 : Byte) = 0x04 ∨ (0x05 : Byte) = 0x01 ∨ (0x05 : Byte) = 0x05)) ∧
    ¬((0x0C : Byte) = 0x00 ∨ (0x0C : Byte) = 0x04 ∨ (0x0C : Byte) = 0x01 ∨ (0x0C : Byte) = 0x05) := by decide

/-- A transport that completes just the bytes SETCON sends, one or three, and the first value that is clamped. -/
theorem witness_SetconSendsTheClampedContrast :
    (ready [] [] (.stallsAfter (bytesSent (.setcon 128)))).busCfg = true ∧
    (ready [] [] (.stallsAfter (bytesSent (.setcon 128)))).transport.accepts (bytesSent (.setcon 128)) = true ∧
    127 < (128 : Byte).toNat ∧ ¬127 < (127 : Byte).toNat :=
  ⟨rfl, decide_eq_true (Nat.le_refl _), by decide⟩

theorem witness_SetcurSendsBothAddressesOrNothing :
    ((83 : Byte).toNat < 84 ∧ (47 : Byte).toNat < 48) ∧ 84 ≤ (84 : Byte).toNat ∧ 48 ≤ (48 : Byte).toNat := by decide

theorem witness_SendcmdCarriesAnyControllerCommand :
    (Instr.vopSet 127).isHost = false ∧ encode (.vopSet 127) = [0xFF] := by decide

theorem witness_FrameBeforeInitIsRefused :
    (fresh [] []).busCfg = false ∧ sendsFrame (.sendcmd 0x21) = true ∧ sendsFrame (.setcur 83 47) = true ∧
    isMode 0x99 = false ∧ 84 ≤ (84 : Byte).toNat := by decide

/-- A SENDDAT stalled at its last byte, a SENDCMD at its one byte, a SETCUR at its second, a SETMODE and a SETCON at their
first, an INIT on a bus not yet configured at the last of its 510. -/
theorem witness_StalledTransferSticksInsideTheFrame :
    ((ready [] [] (.stallsAfter 1)).transport = .stallsAfter 1 ∧ (ready [] [] (.stallsAfter 1)).busCfg = true ∧
      [(0xFF : Byte), 0x00].length = (2 : BitVec 16).toNat ∧ 1 < (2 : BitVec 16).toNat) ∧
    (ready [] [] (.stallsAfter 0)).transport = .stallsAfter 0 ∧
    1 < bytesSent (.setcur 83 47) ∧ 0 < bytesSent (.setmode 0x05) ∧ 0 < bytesSent (.setcon 128) ∧
    ({ fresh [] [] with transport := .stallsAfter 509 } : State).transport = .stallsAfter 509 ∧ 509 < bytesSent .init :=
  ⟨by decide, by decide, by decide, by decide, by show 0 < (if _ then 3 else 1); split <;> decide, rfl, by decide⟩

/-- A canonical framebuffer with a pixel in its first and in its last byte. -/
theorem witness_canonical_framebuffer : (ready [(0, 0x01), (503, 0x80)] [] .live).fb.wf = true := by decide

theorem witness_PixelSetsItsBitAndNothingElse :
    (83 : Byte).toNat < 84 ∧ (47 : Byte).toNat < 48 ∧ 84 ≤ (84 : Byte).toNat ∧ 48 ≤ (48 : Byte).toNat := by decide

theorem witness_PixelsAndBitsCorrespond : (83 < 84 ∧ 47 < 48) ∧ (503 < 504 ∧ 7 < 8) ∧ byteIndex 83 47 = 503 ∧ bitIndex 47 = 7 := by
  decide

theorem witness_DrawingSetsExactlyThePlottedPixels :
    isDrawing (.trif 2 1 0 5 6 7) = true ∧ isDrawing (.pixel 84 0) = true ∧ isDrawing (.circf 1 2 3) = true := by decide

/-- A drawing operation that plots on the surface, and a byte none of its points lies in. -/
theorem witness_DrawingLeavesOtherBytesAlone :
    (∃ t, exec (.pixel 3 3) (fresh [(4, 0x10)] []) = .next t) ∧
    (∀ p ∈ plottedPoints (.pixel 3 3), onSurface p = true → byteIndex p.1.toNat p.2.toNat ≠ 4) := ⟨⟨_, rfl⟩, by decide⟩

theorem witness_PlotOrderCannotBeSeen :
    Memory.wf [(0, 0x01)] = true ∧ ∀ p : Point, p ∈ [((1 : Int), (1 : Int)), (2, 2)] ↔ p ∈ [((2 : Int), (2 : Int)), (1, 1), (2, 2)] :=
  ⟨by decide, fun p => by simp; tauto⟩

/-- A flat line and a steep one, each with its last point. -/
theorem witness_LineTakesTheNearestGridPoints :
    ((linePoints 0 0 5 2)[5]? = some (5, 2) ∧ |(2 : Int) - 0| ≤ |5 - 0| ∧ (0 : Int) ≠ 5) ∧
    ((linePoints 3 7 0 0)[7]? = some (0, 0) ∧ |(0 : Int) - 3| ≤ |0 - 7| ∧ (7 : Int) ≠ 0) := by decide

/-- RECT and RECTF: a corner at the last pixel of the surface, and one just outside it either way. -/
theorem witness_rectangle_corner :
    ((83 : Byte).toNat < 84 ∧ (47 : Byte).toNat < 48) ∧ 84 ≤ (84 : Byte).toNat ∧ 48 ≤ (48 : Byte).toNat := by decide

theorem witness_InterpolationMeetsTheEdgeEnds : (1 : Int) ≠ 5 ∧ (-4 : Int) ≠ 0 := by decide

theorem witness_circle_loop_is_not_empty : (circleLoop 3).length = 2 ∧ circleLoop 0 = [] ∧ ((10 : Int), (13 : Int)) ∈ circPoints 10 10 3 := by
  decide

/-- INIT, UPDATE, CLRSCR: a transport that completes just the bytes they send. -/
theorem witness_session_completion :
    (fresh [(9, 1)] []).fb.wf = true ∧ (ready [] [] (.stallsAfter 510)).transport.accepts 510 = true ∧
    (ready [] [] (.stallsAfter 506)).transport.accepts 506 = true ∧ (ready [] [] (.stallsAfter 504)).transport.accepts 504 = true ∧
    (ready [] [] (.stallsAfter 504)).busCfg = true := by decide

/-- INIT completes from a fresh state that meets the invariant. -/
theorem witness_init_completes : Inv (fresh [(9, 1)] []) ∧ ∃ t, exec .init (fresh [(9, 1)] []) = .next t :=
  ⟨fresh_inv (by decide), by
    rw [exec_init, bringUp, bringUpBytes, cmds_accepts rfl rfl, thenDo_next, clearScreen_eq, zeroFrames_accepts rfl rfl]
    exact ⟨_, rfl⟩⟩

/-- UPDATE and CLRSCR complete from a configured state that meets the invariant. -/
theorem witness_update_completes :
    Inv (ready [(3, 0x08)] [] .live) ∧ (∃ t, exec .update (ready [(3, 0x08)] [] .live) = .next t) ∧
      ∃ t, exec .clrscr (ready [(3, 0x08)] [] .live) = .next t :=
  ⟨ready_inv (by decide), by
    rw [exec_update, setCursor, if_neg (by decide), cmd_accepts rfl rfl, thenDo_next, cmd_accepts rfl rfl, thenDo_next,
      data_accepts rfl rfl]
    exact ⟨_, rfl⟩, by
    rw [exec_clrscr, clearScreen_eq, zeroFrames_accepts rfl rfl]
    exact ⟨_, rfl⟩⟩

/-- A pixel of the surface for the clause on pixels. -/
theorem witness_UpdateFrameCarriesThePixels : pixelAt [(503, 0x80)] 83 47 = true ∧ 83 < 84 ∧ 47 < 48 := by decide

/-- One operation for each clause: a drawing one, one that is no drawing, one that sends nothing, one that sends a frame. -/
theorem witness_EachRegisterHasItsWriters :
    (∃ t, exec (.pixel 3 3) (fresh [] []) = .next t) ∧ (∃ t, exec .rdbuf (fresh [] []) = .next t) ∧
    (sendsFrame (.setmode 0x99) = false ∧ isDrawing (.setmode 0x99) = false ∧ ∃ t, exec (.setmode 0x99) (fresh [] []) = .next t) ∧
    ∃ t, exec (.sendcmd 0x21) (ready [] [] .live) = .next t :=
  ⟨⟨_, rfl⟩, ⟨_, rfl⟩, ⟨by decide, by decide, _, rfl⟩, _, rfl⟩

theorem witness_OutputHistoriesOnlyGrow : ∃ t, step (ready [] [0x0A] .live) = .next t := ⟨_, rfl⟩

/-- A live transport, one that completes just one byte, an operation that sends none, and one that needs no INIT. -/
theorem witness_EveryOperationCompletes :
    (ready [] [] (.stallsAfter 1)).busCfg = true ∧ (ready [] [] (.stallsAfter 1)).transport.accepts (bytesSent (.sendcmd 0x21)) = true ∧
    sendsFrame .init = false ∧ (fresh [] []).transport.accepts (bytesSent .init) = true ∧
    bytesSent (.setcur 84 0) = 0 ∧ needsNoInit (.circf 1 2 3) = true := by decide

/-- A program that begins with INIT, from reset, and one that does not, on a configured bus. -/
theorem witness_ProgramRunsToItsEnd :
    (∀ i ∈ [Instr.init, .pixel 3 3, .update], i.isHost = true ∧ i.wf = true) ∧
    TransportLive (fresh [] (encodeAll [.init, .pixel 3 3, .update])) ∧
    [Instr.init, .pixel 3 3, .update].head? = some .init ∧
    TransportLive (ready [] (encodeAll [.sendcmd 0x21]) .live) ∧ (ready [] (encodeAll [.sendcmd 0x21]) .live).busCfg = true :=
  ⟨by decide, rfl, rfl, rfl, rfl⟩

theorem witness_ClearingForgetsTheFramebuffer :
    (fresh [(9, 1)] []).fb.wf = true ∧ Memory.wf [(0, 0x01), (503, 0x80)] = true ∧ ∃ t, exec .clrbuf (fresh [(9, 1)] []) = .next t :=
  ⟨by decide, by decide, _, rfl⟩

theorem witness_ProtocolIgnoresTheFramebuffer :
    sendsFrame (.sendcmd 0x21) = true ∧ Instr.sendcmd 0x21 ≠ .update ∧
    ∃ t, exec (.sendcmd 0x21) (ready [] [] .live) = .next t := ⟨by decide, by decide, _, rfl⟩

theorem witness_BytesLeaveMostSignificantBitFirst : 5 < 6 ∧ 7 < 8 ∧ serialBits 0x81 = [true, false, false, false, false, false, false, true] := by
  decide

end Sys2Proof.Tests
end

section
/-! PROOF. The states the spec allows after FBR's own reset (R33), and O1. -/

namespace Sys2Proof.Machine

/-- `PowerOn` field by field, as the table of R33 lists the state: nothing is said of the stream and the transport, and of
the framebuffer only that it is canonical. -/
theorem powerOn_iff (s : State) :
    PowerOn s ↔ s.fb.wf = true ∧
      s.rst = none ∧ s.ce = none ∧ s.dc = none ∧ s.busCfg = false ∧ s.cp = 0 ∧ s.trace = [] ∧ s.hostOut = [] := by
  cases s
  simp [PowerOn, State.reset]

/-- Any canonical framebuffer in the reset state gives a state the spec allows after reset. -/
theorem powerOn_reset_withFb {m : Memory} (hm : m.wf = true) : PowerOn { State.reset with fb := m } :=
  ⟨hm, rfl⟩

/-- Settles O1: the table of R33, read off `PowerOn` field by field. -/
theorem powerOnLeavesTheSpecifiedValues : Obligations.PowerOnLeavesTheSpecifiedValues :=
  ⟨fun _ hm => powerOn_reset_withFb hm, fun s hs => ((powerOn_iff s).mp hs).2⟩

end Sys2Proof.Machine
end

section
/-! PROOF. When a packet is whole (R63), that the decoder reads exactly the whole packets of the table's opcodes (R65), what
the fetch then answers, and O11. -/

namespace Sys2Proof

/-- All bytes of the first packet are there: its own bytes give it a length, and the stream is that long (R63, R65). -/
def PacketWhole (bytes : List Byte) : Prop := ∃ n, packetSpan bytes = some n ∧ n ≤ bytes.length

theorem packetWhole_iff_of_span {bytes : List Byte} {n : Nat} (h : packetSpan bytes = some n) :
    PacketWhole bytes ↔ n ≤ bytes.length := by
  simp [PacketWhole, h]

theorem not_packetWhole_of_span_none {bytes : List Byte} (h : packetSpan bytes = none) : ¬ PacketWhole bytes := by
  simp [PacketWhole, h]

/-- A packet is not whole exactly if every length its bytes give it runs past the end of the stream. -/
theorem not_packetWhole {bytes : List Byte} :
    ¬ PacketWhole bytes ↔ ∀ n, packetSpan bytes = some n → bytes.length < n := by
  simp [PacketWhole]

/-- The decoder's answer `d` is an operation if `whole` holds, and truncation if it does not. -/
def OkIffWhole (whole : Prop) (d : Decoded) : Prop :=
  (whole → ∃ i rest, d = .ok (i, rest)) ∧ (¬ whole → d = .error .truncated)

theorem okIffWhole_of_ok {whole : Prop} (hw : whole) (i : Instr) (rest : List Byte) :
    OkIffWhole whole (.ok (i, rest)) :=
  ⟨fun _ => ⟨i, rest, rfl⟩, fun hn => absurd hw hn⟩

theorem okIffWhole_of_truncated {whole : Prop} (hn : ¬ whole) : OkIffWhole whole (.error .truncated) :=
  ⟨fun hw => absurd hw hn, fun _ => rfl⟩

/-! ### The operand readers of R61, by the number of bytes after the opcode -/

theorem decodeF1_okIffWhole (f : Byte → Instr) (rest : List Byte) : OkIffWhole (1 ≤ rest.length) (decodeF1 f rest) := by
  match rest with
  | [] => exact okIffWhole_of_truncated (by simp)
  | _ :: _ => exact okIffWhole_of_ok (by simp) _ _

theorem decodeF2_okIffWhole (f : Byte → Byte → Instr) (rest : List Byte) :
    OkIffWhole (2 ≤ rest.length) (decodeF2 f rest) := by
  match rest with
  | [] | [_] => exact okIffWhole_of_truncated (by simp)
  | _ :: _ :: _ => exact okIffWhole_of_ok (by simp) _ _

theorem decodeF3_okIffWhole (f : Byte → Byte → Byte → Instr) (rest : List Byte) :
    OkIffWhole (3 ≤ rest.length) (decodeF3 f rest) := by
  match rest with
  | [] | [_] | [_, _] => exact okIffWhole_of_truncated (by simp)
  | _ :: _ :: _ :: _ => exact okIffWhole_of_ok (by simp) _ _

theorem decodeF4_okIffWhole (f : Byte → Byte → Byte → Byte → Instr) (rest : List Byte) :
    OkIffWhole (4 ≤ rest.length) (decodeF4 f rest) := by
  match rest with
  | [] | [_] | [_, _] | [_, _, _] => exact okIffWhole_of_truncated (by simp)
  | _ :: _ :: _ :: _ :: _ => exact okIffWhole_of_ok (by simp) _ _

theorem decodeF6_okIffWhole (f : Byte → Byte → Byte → Byte → Byte → Byte → Instr) (rest : List Byte) :
    OkIffWhole (6 ≤ rest.length) (decodeF6 f rest) := by
  match rest with
  | [] | [_] | [_, _] | [_, _, _] | [_, _, _, _] | [_, _, _, _, _] => exact okIffWhole_of_truncated (by simp)
  | _ :: _ :: _ :: _ :: _ :: _ :: _ => exact okIffWhole_of_ok (by simp) _ _

/-! ### The whole packet -/

/-- A packet of a fixed-length format: its operand reader asks for the `k` bytes that its length counts after the opcode. -/
theorem okIffWhole_of_fixedSpan {op : Byte} {rest : List Byte} {k : Nat} {d : Decoded}
    (hspan : packetSpan (op :: rest) = some (k + 1)) (hd : OkIffWhole (k ≤ rest.length) d) :
    OkIffWhole (PacketWhole (op :: rest)) d := by
  rwa [packetWhole_iff_of_span hspan, List.length_cons, Nat.add_le_add_iff_right]

/-- A packet without operands is whole as soon as its opcode is there. -/
theorem okIffWhole_of_span_one {op : Byte} {rest : List Byte} (hspan : packetSpan (op :: rest) = some 1) (i : Instr) :
    OkIffWhole (PacketWhole (op :: rest)) (.ok (i, rest)) :=
  okIffWhole_of_ok ((packetWhole_iff_of_span hspan).mpr (by simp)) i rest

/-- SENDDAT is whole exactly if both length bytes are there and as many payload bytes as they say (R63). -/
theorem decodeFV_okIffWhole (rest : List Byte) : OkIffWhole (PacketWhole (0x02#8 :: rest)) (decodeFV rest) := by
  match rest with
  | [] | [_] => exact okIffWhole_of_truncated (not_packetWhole_of_span_none rfl)
  | lo :: hi :: payload =>
    have hwhole : PacketWhole (0x02#8 :: lo :: hi :: payload) ↔ (senddatLen lo hi).toNat ≤ payload.length := by
      rw [packetWhole_iff_of_span (n := 3 + (senddatLen lo hi).toNat) rfl]
      simp only [List.length_cons]
      omega
    rw [hwhole]
    by_cases h : (senddatLen lo hi).toNat ≤ payload.length
    · simpa only [decodeFV, if_pos h] using okIffWhole_of_ok h _ _
    · simpa only [decodeFV, if_neg h] using okIffWhole_of_truncated h

/-- After an opcode of the table the decoder answers an operation if the packet is whole, and truncation if it is not: one
line for each row of R62. -/
theorem decode_okIffWhole {op : Byte} (h : formatOf op ≠ none) (rest : List Byte) :
    OkIffWhole (PacketWhole (op :: rest)) (decode (op :: rest)) := by
  rw [formatOf_ne_none] at h
  simp only [opcodes, List.mem_cons, List.not_mem_nil, or_false] at h
  rcases h with rfl | rfl | rfl | rfl | rfl | rfl | rfl | rfl | rfl | rfl | rfl | rfl | rfl | rfl | rfl | rfl | rfl | rfl
  · exact okIffWhole_of_fixedSpan rfl (decodeF1_okIffWhole .sendcmd rest)
  · exact decodeFV_okIffWhole rest
  · exact okIffWhole_of_fixedSpan rfl (decodeF1_okIffWhole .setmode rest)
  · exact okIffWhole_of_fixedSpan rfl (decodeF1_okIffWhole .setcon rest)
  · exact okIffWhole_of_fixedSpan rfl (decodeF2_okIffWhole .setcur rest)
  · exact okIffWhole_of_span_one rfl .clrbuf
  · exact okIffWhole_of_fixedSpan rfl (decodeF2_okIffWhole .pixel rest)
  · exact okIffWhole_of_span_one rfl .rdbuf
  · exact okIffWhole_of_fixedSpan rfl (decodeF4_okIffWhole .line rest)
  · exact okIffWhole_of_fixedSpan rfl (decodeF4_okIffWhole .rect rest)
  · exact okIffWhole_of_fixedSpan rfl (decodeF4_okIffWhole .rectf rest)
  · exact okIffWhole_of_fixedSpan rfl (decodeF6_okIffWhole .tri rest)
  · exact okIffWhole_of_fixedSpan rfl (decodeF6_okIffWhole .trif rest)
  · exact okIffWhole_of_fixedSpan rfl (decodeF3_okIffWhole .circ rest)
  · exact okIffWhole_of_fixedSpan rfl (decodeF3_okIffWhole .circf rest)
  · exact okIffWhole_of_span_one rfl .init
  · exact okIffWhole_of_span_one rfl .update
  · exact okIffWhole_of_span_one rfl .clrscr

/-- The bytes without a format are the reserved ranges that R65 lists. -/
theorem formatOf_eq_none_iff (op : Byte) :
    formatOf op = none ↔
      op.toNat = 0x00 ∨ op.toNat = 0x06 ∨ op.toNat = 0x07 ∨ (0x0B ≤ op.toNat ∧ op.toNat ≤ 0x0F) ∨ op.toNat = 0x11 ∨
        (0x18 ≤ op.toNat ∧ op.toNat ≤ 0x1F) ∨ 0x23 ≤ op.toNat := by
  revert op
  decide +kernel

end Sys2Proof

namespace Sys2Proof.Machine

/-! ### The fetch -/

theorem fetch_of_decode_ok {s : State} {i : Instr} {rest : List Byte} (h : decode (s.cmd.drop s.cp) = .ok (i, rest)) :
    fetch s = .ok i := by
  simp [fetch, h]

theorem fetch_of_decode_error {s : State} {e : DecodeError} (h : decode (s.cmd.drop s.cp) = .error e) :
    fetch s = .error (refusalOf e) := by
  simp [fetch, h]

/-- What the fetch can answer: a reserved opcode is refused, a packet that is not whole is refused as truncated, and a whole
packet of the table is fetched (R60, R65). -/
theorem fetch_cases {s : State} {op : Byte} {rest : List Byte} (hcmd : s.cmd.drop s.cp = op :: rest) :
    (formatOf op = none ∧ fetch s = .error (.reservedOpcode op)) ∨
      (formatOf op ≠ none ∧ ¬ PacketWhole (op :: rest) ∧ fetch s = .error .truncatedPacket) ∨
      (formatOf op ≠ none ∧ PacketWhole (op :: rest) ∧ ∃ i, fetch s = .ok i) := by
  by_cases hformat : formatOf op = none
  · exact .inl ⟨hformat, fetch_of_decode_error (hcmd ▸ decode_reserved hformat rest)⟩
  · obtain ⟨hok, htruncated⟩ := decode_okIffWhole hformat rest
    by_cases hwhole : PacketWhole (op :: rest)
    · obtain ⟨i, tail, hdecode⟩ := hok hwhole
      exact .inr (.inr ⟨hformat, hwhole, i, fetch_of_decode_ok (hcmd ▸ hdecode)⟩)
    · exact .inr (.inl ⟨hformat, hwhole, fetch_of_decode_error (hcmd ▸ htruncated hwhole)⟩)

theorem fetch_eq_reserved_iff {s : State} {op : Byte} {rest : List Byte} (hcmd : s.cmd.drop s.cp = op :: rest) :
    fetch s = .error (.reservedOpcode op) ↔ formatOf op = none := by
  rcases fetch_cases hcmd with ⟨hformat, hf⟩ | ⟨hformat, -, hf⟩ | ⟨hformat, -, i, hf⟩ <;> simp [hformat, hf]

theorem fetch_eq_truncated_iff {s : State} {op : Byte} {rest : List Byte} (hcmd : s.cmd.drop s.cp = op :: rest) :
    fetch s = .error .truncatedPacket ↔ formatOf op ≠ none ∧ ¬ PacketWhole (op :: rest) := by
  rcases fetch_cases hcmd with ⟨hformat, hf⟩ | ⟨hformat, hwhole, hf⟩ | ⟨hformat, hwhole, i, hf⟩
  · simp [hformat, hf]
  · simp [hformat, hwhole, hf]
  · simp [hwhole, hf]

theorem fetch_eq_ok_iff {s : State} {op : Byte} {rest : List Byte} (hcmd : s.cmd.drop s.cp = op :: rest) :
    (∃ i, fetch s = .ok i) ↔ formatOf op ≠ none ∧ PacketWhole (op :: rest) := by
  rcases fetch_cases hcmd with ⟨hformat, hf⟩ | ⟨hformat, hwhole, hf⟩ | ⟨hformat, hwhole, i, hf⟩
  · simp [hformat, hf]
  · simp [hwhole, hf]
  · simp [hformat, hwhole, hf]

/-- Before the end of the stream the step passes on what the fetch refuses (R60, R65). -/
theorem step_of_fetch_error {s : State} {r : Refusal} (hcp : s.cp < s.cmd.length) (h : fetch s = .error r) :
    step s = .refused r := by
  simp [step, runOver, hcp.ne, h]

/-- Settles O11, clause by clause from what the fetch answers on the reserved ranges, on a packet that is not whole and on a
whole one. -/
theorem reservedAndTruncatedPacketsAreRefused : Obligations.ReservedAndTruncatedPacketsAreRefused := by
  intro s op rest hcp hcmd
  refine ⟨?reserved, ?truncated, ?fetched, fun r => step_of_fetch_error hcp⟩
  case reserved => rw [fetch_eq_reserved_iff hcmd, formatOf_eq_none_iff]
  case truncated => rw [fetch_eq_truncated_iff hcmd, not_packetWhole]
  case fetched => exact fun hformat hwhole => (fetch_eq_ok_iff hcmd).mpr ⟨hformat, hwhole⟩

end Sys2Proof.Machine
end

section
/-! PROOF. The controller protocol family (spec/40_controller_protocol.md), from the list of frames each operation sends:
O15 to O19 and O22. -/

namespace Sys2Proof.Machine

/-! ### The operands -/

theorem isMode_iff (mode : Byte) : isMode mode = true ↔ mode = 0x00 ∨ mode = 0x04 ∨ mode = 0x01 ∨ mode = 0x05 := by
  simp [isMode, or_assoc]

/-- SETCUR sends exactly if it passes the check of R88. -/
theorem sendsFrame_setcur (x y : Byte) : sendsFrame (.setcur x y) = true ↔ x.toNat < 84 ∧ y.toNat < 48 := by
  rw [sendsFrame, Bool.and_eq_true, decide_eq_true_eq, decide_eq_true_eq]
  rfl

theorem framesOf_setcur {x y : Byte} (h : x.toNat < 84 ∧ y.toNat < 48) (fb : Memory) :
    framesOf fb (.setcur x y) = [(.low, [xAddressByte x]), (.low, [yAddressByte y])] := by
  refine if_neg ?_
  simp only [Config.width, Config.height]
  omega

theorem exec_setmode_invalid {mode : Byte} (h : isMode mode = false) (s : State) : exec (.setmode mode) s = .next s := by
  simp [exec_setmode, h]

theorem exec_setcur_outside {x y : Byte} (h : 84 ≤ x.toNat ∨ 48 ≤ y.toNat) (s : State) :
    exec (.setcur x y) s = .next s := by
  rw [exec_setcur, setCursor]
  exact if_pos h

theorem clampContrast_of_lt {value : Byte} (h : 127 < value.toNat) : clampContrast value = clampContrast 127 := by
  rw [clampContrast, if_neg (by omega)]
  rfl

/-- The two length bytes of a SENDDAT packet as numbers: the length modulo 256 and divided by 256 (R61). -/
theorem senddatLenBytes_eq_ofNat (len : BitVec 16) :
    senddatLenBytes len = [BitVec.ofNat 8 len.toNat, BitVec.ofNat 8 (len.toNat / 256)] := by
  simp only [senddatLenBytes, BitVec.extractLsb', Nat.shiftRight_eq_div_pow, Nat.pow_zero, Nat.div_one, Nat.reducePow]

/-- Two command frames in a row, as one update. -/
theorem afterFrame_afterFrame_low (a b : Byte) (s : State) :
    afterFrame .low [b] (afterFrame .low [a] s) =
      { s with dc := some .low, ce := some .high,
               trace := s.trace ++ [.dc .low, .ce .low, .tx a, .ce .high, .dc .low, .ce .low, .tx b, .ce .high],
               transport := s.transport.after 2 } := by
  simp [afterFrame, frameEvents, Transport.after_add]

/-! ### An operation as its frames: completed, refused, or none to send -/

/-- An operation that sends frames leaves the state after them, on a configured bus with its transfers completing. -/
theorem exec_accepts {i : Instr} {s : State} (hi : sendsFrame i = true) (hb : s.busCfg = true)
    (ha : s.transport.accepts (bytesSent i) = true) : exec i s = .next (afterFrames (framesOf s.fb i) s) := by
  rw [exec_eq_sendFrames hi]
  exact sendFrames_accepts hb (by rwa [framesBytes_framesOf])

/-- Of one frame or more before INIT, already the first is refused (R89). -/
theorem sendFrames_refused {fs : List (Level × List Byte)} {s : State} (hfs : fs ≠ []) (hb : s.busCfg = false) :
    sendFrames fs s = .refused .busNotConfigured := by
  cases fs with
  | nil => exact absurd rfl hfs
  | cons f fs => simp [sendFrames, sendFrame, hb]

/-- `sendsFrame` says that there is a frame to send: the checks of SETMODE and SETCUR are those of their frames. -/
theorem framesOf_ne_nil {i : Instr} (hi : sendsFrame i = true) (fb : Memory) : framesOf fb i ≠ [] := by
  cases i with
  | setmode mode =>
    have hmode : isMode mode = true := hi
    simp [framesOf, hmode]
  | setcon value => rw [framesOf]; split <;> simp
  | setcur x y =>
    rw [framesOf_setcur ((sendsFrame_setcur x y).mp hi)]
    simp
  | clrscr => exact mt (List.replicate_eq_nil_iff _).mp (by decide)
  | clrbuf | pixel | rdbuf | line | rect | rectf | tri | trif | circ | circf | init => exact absurd hi Bool.false_ne_true
  | _ => simp [framesOf]

theorem exec_refused {i : Instr} {s : State} (hi : sendsFrame i = true) (hb : s.busCfg = false) :
    exec i s = .refused .busNotConfigured := by
  rw [exec_eq_sendFrames hi]
  exact sendFrames_refused (framesOf_ne_nil hi s.fb) hb

/-! ### The obligations -/

/-- Settles O16: its one data frame, the payload being as long as `len` says. -/
theorem senddatSendsOneDataFrame : Obligations.SenddatSendsOneDataFrame := by
  intro len payload s hlen
  refine ⟨?packet, fun hb ha => ?frame⟩
  case packet =>
    rw [encode, senddatLenBytes_eq_ofNat]
    rfl
  case frame =>
    have htake : payload.take len.toNat = payload := List.take_of_length_le hlen.le
    rw [exec_senddat, htake, data_accepts hb (by rwa [hlen]), afterFrame, hlen]
    rfl

/-- Settles O17: a valid mode is one command frame, any other value no frame. -/
theorem setmodeSendsAValidModeAndIgnoresOthers : Obligations.SetmodeSendsAValidModeAndIgnoresOthers := by
  intro mode s
  refine ⟨rfl, fun hmode hb ha => ?valid, fun hmode => ?invalid⟩
  case valid =>
    rw [exec_setmode, if_pos ((isMode_iff mode).mpr hmode), cmd_accepts hb ha]
    rfl
  case invalid =>
    rw [← isMode_iff, Bool.not_eq_true] at hmode
    exact exec_setmode_invalid hmode s

/-- Settles O18: its frames for either value of `SETCON_BRACKET`, which depend on the value only through the clamp. -/
theorem setconSendsTheClampedContrast : Obligations.SetconSendsTheClampedContrast := by
  intro value s
  refine ⟨rfl, fun hb ha => ?frames, fun hvalue => ?clamped⟩
  case frames =>
    rw [exec_accepts rfl hb ha, framesOf]
    split <;> rfl
  case clamped => rw [exec_setcon, exec_setcon, setContrast, setContrast, clampContrast_of_lt hvalue]

/-- Settles O19: two command frames in range, none outside. -/
theorem setcurSendsBothAddressesOrNothing : Obligations.SetcurSendsBothAddressesOrNothing := by
  intro x y s
  refine ⟨rfl, fun hrange hb ha => ?inside, fun hout => exec_setcur_outside hout s⟩
  case inside =>
    have hbytes : bytesSent (.setcur x y) = 2 := by
      rw [← framesBytes_framesOf s.fb, framesOf_setcur hrange]
      rfl
    rw [exec_accepts ((sendsFrame_setcur x y).mpr hrange) hb (by rwa [hbytes]), framesOf_setcur hrange]
    exact congrArg _ (afterFrame_afterFrame_low _ _ s)

/-- Settles O22: the first frame is refused, and an operation that fails its own check has none. -/
theorem frameBeforeInitIsRefused : Obligations.FrameBeforeInitIsRefused := by
  intro i s hb
  refine ⟨fun hi => exec_refused hi hb, ?silent⟩
  rintro (⟨mode, rfl, hmode⟩ | ⟨x, y, rfl, hout⟩)
  · exact exec_setmode_invalid hmode s
  · exact exec_setcur_outside hout s

/-- Settles O15: SENDCMD is `Cmd` of its byte. -/
theorem sendcmdSendsOneCommandFrame : Obligations.SendcmdSendsOneCommandFrame := by
  intro byte s
  refine ⟨rfl, fun hb ha => ?_⟩
  rw [exec_sendcmd, cmd_accepts hb ha]
  rfl

end Sys2Proof.Machine
end

section
/-! PROOF. The framebuffer family (spec/41_framebuffer.md), from the readings of a clear, of `Plot` and of a readout in
Laws/Memory.lean: O24 to O26. -/

namespace Sys2Proof.Machine

/-! ### CLRBUF and RDBUF -/

/-- CLRBUF leaves the framebuffer that lists nothing (R100). -/
theorem exec_clrbuf_of_wf {s : State} (hm : s.fb.wf = true) : exec .clrbuf s = .next { s with fb := [] } := by
  rw [exec_clrbuf, clearBuffer_eq hm]

/-- Byte `i` of a readout, by its number (R104). -/
theorem Memory.bytes_getElem?_of_lt (m : Memory) {i : Nat} (hi : i < Config.fbSize) : m.bytes[i]? = some (m.read i) := by
  have hlen : i < m.bytes.length := by rwa [Memory.bytes_length]
  rw [List.getElem?_eq_getElem hlen, Memory.bytes_getElem]

/-! ### PIXEL -/

/-- PIXEL is one `Plot` of the framebuffer (R105). -/
theorem exec_pixel (x y : Byte) (s : State) : exec (.pixel x y) s = .next { s with fb := plot (zext x, zext y) s.fb } := by
  rw [exec_drawing rfl, draw, plottedPoints, plotAll, List.foldl_cons, List.foldl_nil]

/-- Two operands name a point of the surface by their values alone: no operand is negative (R10, R101). -/
theorem onSurface_zext (x y : Byte) : onSurface (zext x, zext y) = true ↔ x.toNat < 84 ∧ y.toNat < 48 := by
  simp [onSurface, zext, Config.width, Config.height]

/-- What the pixel write of two operands on the surface does to each byte (R45). -/
theorem read_plot_zext {m : Memory} {x y : Byte} (hm : m.wf = true) (h : x.toNat < 84 ∧ y.toNat < 48) (j : Nat) :
    (plot (zext x, zext y) m).read j =
      if j = byteIndex x.toNat y.toNat then m.read j ||| pixelMask y.toNat else m.read j := by
  simp only [read_plot hm, (onSurface_zext x y).mpr h, true_and]
  rfl

/-- PIXEL outside the surface makes no access (R101, R105). -/
theorem exec_pixel_outside {x y : Byte} (h : 84 ≤ x.toNat ∨ 48 ≤ y.toNat) (s : State) : exec (.pixel x y) s = .next s := by
  have hoff : onSurface (zext x, zext y) = false := by
    rw [← Bool.not_eq_true, onSurface_zext]
    omega
  rw [exec_pixel, plot_off _ hoff]

/-! ### The obligations -/

/-- Settles O24: the framebuffer left lists nothing, and an index that is not listed reads 0x00. -/
theorem clrbufZeroesEveryByte : Obligations.ClrbufZeroesEveryByte :=
  fun _ hm => ⟨rfl, [], exec_clrbuf_of_wf hm, rfl, fun _ _ => rfl⟩

/-- Settles O25: the byte `Plot` writes and the bytes it leaves, and nothing plotted outside the surface. -/
theorem pixelSetsItsBitAndNothingElse : Obligations.PixelSetsItsBitAndNothingElse := by
  intro x y s hm
  refine ⟨rfl, fun hin => ⟨_, exec_pixel x y s, ?written, fun j hj => ?other⟩, fun hout => exec_pixel_outside hout s⟩
  case written => exact (read_plot_zext hm hin _).trans (if_pos rfl)
  case other => exact (read_plot_zext hm hin j).trans (if_neg hj)

/-- Settles O26: the bytes appended are the readout of the framebuffer. -/
theorem rdbufDeliversTheWholeBuffer : Obligations.RdbufDeliversTheWholeBuffer :=
  ⟨rfl, fun s => ⟨s.fb.bytes, exec_rdbuf s, Memory.bytes_length s.fb, fun _ hi => Memory.bytes_getElem?_of_lt s.fb hi⟩⟩

end Sys2Proof.Machine
end

section
/-! PROOF. The rectangles (spec/42_rasterizer_line_rect.md), O35 and O36: what a line along an axis plots (R113 (c)), then
the points of RECT and RECTF. A vertical line is a horizontal one with the coordinates exchanged. -/

namespace Sys2Proof.Machine

/-! ### The absolute value and the step sign of `Line` -/

/-- From either end of a line the step sign leads to the other end in as many steps as they are apart. -/
theorem add_stepSign_mul_absNat (a b : Int) : a + stepSign a b * (absNat (b - a) : Int) = b := by
  unfold stepSign absNat
  split <;> omega

theorem stepSign_ne_zero (a b : Int) : stepSign a b ≠ 0 := by
  unfold stepSign
  split <;> decide

/-- The points that many steps from one end, up to the other end, are the integers between the ends. -/
theorem exists_step_iff (a b z : Int) :
    (∃ k : Nat, k < absNat (b - a) + 1 ∧ a + stepSign a b * (k : Int) = z) ↔ min a b ≤ z ∧ z ≤ max a b := by
  unfold stepSign absNat
  constructor
  · rintro ⟨k, hk, rfl⟩
    split <;> omega
  · intro hz
    refine ⟨(z - a).natAbs, by omega, ?_⟩
    split <;> omega

/-! ### Lines along an axis -/

/-- Exchanging the coordinates turns the decision value round and exchanges its two tests. -/
theorem lineLoop_swap (xb yb dx dy sx sy : Int) (turns : Nat) (err x y : Int) :
    (lineLoop xb yb dx dy sx sy turns err x y).map Prod.swap = lineLoop yb xb dy dx sy sx turns (-err) y x := by
  induction turns generalizing err x y with
  | zero => rfl
  | succ turns ih =>
    have hx : 2 * -err < dy ↔ 2 * err > -dy := by omega
    have hy : 2 * -err > -dx ↔ 2 * err < dx := by omega
    have herr : -err - (if 2 * err < dx then dx else 0) + (if 2 * err > -dy then dy else 0) =
        -(err - (if 2 * err > -dy then dy else 0) + (if 2 * err < dx then dx else 0)) := by omega
    simp only [lineLoop, List.map_cons, List.map_nil, apply_ite (List.map Prod.swap), Prod.swap, ih, hx, hy, herr,
      and_comm (a := x = xb)]

/-- A line with the coordinates of both ends exchanged plots the points with their coordinates exchanged. -/
theorem linePoints_swap (xa ya xb yb : Int) : (linePoints xa ya xb yb).map Prod.swap = linePoints ya xa yb xb := by
  rw [linePoints, linePoints, lineLoop_swap, max_comm, neg_sub]

theorem mem_linePoints_swap (xa ya xb yb : Int) (p : Point) :
    p.swap ∈ linePoints ya xa yb xb ↔ p ∈ linePoints xa ya xb yb := by
  rw [← linePoints_swap]
  exact List.mem_map_swap p.1 p.2 _

/-- With `dy = 0` the decision value never changes, and every turn before the last moves one step along the row. -/
theorem lineLoop_horizontal {s d : Int} (hs : s ≠ 0) (sy c : Int) (n : Nat) (hn : n ≠ 0 → 0 < d) (x : Int) :
    lineLoop (x + s * n) c d 0 s sy (n + 1) d x c = (List.range (n + 1)).map fun k : Nat => (x + s * (k : Int), c) := by
  induction n generalizing x with
  | zero => simp [lineLoop]
  | succ n ih =>
    have hpos : 0 < d := hn n.succ_ne_zero
    have hmove : 2 * d > -0 := by omega
    have hrow : ¬ 2 * d < d := by omega
    have hmoved : s * ((n + 1 : Nat) : Int) ≠ 0 := mul_ne_zero hs (by omega)
    have hnotEnd : ¬ (x = x + s * ((n + 1 : Nat) : Int) ∧ c = c) := by omega
    have hnext (k : Nat) : x + s * ((k + 1 : Nat) : Int) = x + s + s * (k : Int) := by
      push_cast
      ring
    rw [lineLoop, if_neg hnotEnd, if_pos hmove, if_neg hrow, if_pos hmove, if_neg hrow, sub_zero, add_zero, hnext,
      ih (fun _ => hpos), List.range_succ_eq_map (n := n + 1), List.map_cons, List.map_map]
    simp only [Function.comp_def, Nat.succ_eq_add_one, hnext, Nat.cast_zero, mul_zero, add_zero]

/-- A horizontal line plots every point between its ends, in the order from its start (R113 (c)). -/
theorem linePoints_horizontal (a b c : Int) :
    linePoints a c b c = (List.range (absNat (b - a) + 1)).map fun k : Nat => (a + stepSign a b * (k : Int), c) := by
  have h := lineLoop_horizontal (stepSign_ne_zero a b) (d := absNat (b - a)) (stepSign c c) c
    (absNat (b - a)) (by omega) a
  rw [add_stepSign_mul_absNat] at h
  rw [← h, linePoints]
  simp [absNat]

theorem mem_linePoints_horizontal (a b c : Int) (p : Point) :
    p ∈ linePoints a c b c ↔ p.2 = c ∧ min a b ≤ p.1 ∧ p.1 ≤ max a b := by
  obtain ⟨px, py⟩ := p
  rw [← exists_step_iff, linePoints_horizontal]
  simp only [List.mem_map, List.mem_range, Prod.mk.injEq, ← and_assoc, exists_and_right]
  rw [and_comm, eq_comm (a := c)]

theorem mem_linePoints_vertical (a b c : Int) (p : Point) :
    p ∈ linePoints c a c b ↔ p.1 = c ∧ min a b ≤ p.2 ∧ p.2 ≤ max a b := by
  rw [← mem_linePoints_swap, mem_linePoints_horizontal, Prod.fst_swap, Prod.snd_swap]

/-! ### The points of RECT and RECTF -/

theorem rectCorner_iff (x y : Byte) : rectCorner x y = true ↔ x.toNat < 84 ∧ y.toNat < 48 := by
  rw [rectCorner, Bool.and_eq_true, decide_eq_true_iff, decide_eq_true_iff]
  rfl

/-- A corner outside the surface fails the one check of RECT and RECTF (R116). -/
theorem not_rectCorner {x y : Byte} (h : 84 ≤ x.toNat ∨ 48 ≤ y.toNat) : ¬ rectCorner x y = true := by
  rw [rectCorner_iff]
  omega

/-- RECT plots the two rows and the two columns of its edges (R114). -/
theorem mem_rectPoints {x y : Byte} (h : rectCorner x y = true) (width height : Byte) (p : Point) :
    p ∈ rectPoints x y width height ↔
      ((p.2 = zext y ∨ p.2 = farEdge y height) ∧
            min (zext x) (farEdge x width) ≤ p.1 ∧ p.1 ≤ max (zext x) (farEdge x width))
        ∨ ((p.1 = zext x ∨ p.1 = farEdge x width) ∧
            min (zext y) (farEdge y height) ≤ p.2 ∧ p.2 ≤ max (zext y) (farEdge y height)) := by
  rw [rectPoints, if_pos h]
  simp only [List.mem_append, mem_linePoints_horizontal, mem_linePoints_vertical, or_and_right, or_assoc]

/-- The row offsets of a fill, counted as natural numbers and used as integers. -/
theorem mem_range_cast (n : Nat) (z : Int) :
    z ∈ (List.range n >>= fun k => pure (k : Int) : List Int) ↔ 0 ≤ z ∧ z < n := by
  simp only [List.bind_eq_flatMap, List.pure_def, List.mem_flatMap, List.mem_range, List.mem_singleton]
  constructor
  · rintro ⟨k, hk, rfl⟩
    omega
  · rintro ⟨hlow, hhigh⟩
    exact ⟨z.toNat, by omega, by omega⟩

/-- RECTF plots `height` rows from its corner's row down (R115). -/
theorem mem_rectfPoints {x y : Byte} (h : rectCorner x y = true) (width height : Byte) (p : Point) :
    p ∈ rectfPoints x y width height ↔
      zext y ≤ p.2 ∧ p.2 < zext y + zext height ∧
        min (zext x) (farEdge x width) ≤ p.1 ∧ p.1 ≤ max (zext x) (farEdge x width) := by
  rw [rectfPoints, if_pos h]
  simp only [List.mem_flatMap, mem_range_cast, mem_linePoints_horizontal]
  constructor
  · rintro ⟨i, hi, hrow, hcol⟩
    exact ⟨by omega, by unfold zext at *; omega, hcol⟩
  · rintro ⟨hlow, hhigh, hcol⟩
    exact ⟨p.2 - zext y, by unfold zext at *; omega, by omega, hcol⟩

/-! ### The operations -/

/-- A drawing operation without points leaves the state as it is. -/
theorem exec_of_plottedPoints_nil {i : Instr} (hi : isDrawing i = true) (hp : plottedPoints i = []) (s : State) :
    exec i s = .next s := by
  rw [exec_drawing hi, hp]
  rfl

theorem exec_rect_outside {x y : Byte} (h : 84 ≤ x.toNat ∨ 48 ≤ y.toNat) (width height : Byte) (s : State) :
    exec (.rect x y width height) s = .next s :=
  exec_of_plottedPoints_nil rfl (by rw [plottedPoints, rectPoints, if_neg (not_rectCorner h)]) s

theorem exec_rectf_outside {x y : Byte} (h : 84 ≤ x.toNat ∨ 48 ≤ y.toNat) (width height : Byte) (s : State) :
    exec (.rectf x y width height) s = .next s :=
  exec_of_plottedPoints_nil rfl (by rw [plottedPoints, rectfPoints, if_neg (not_rectCorner h)]) s

/-- A pixel of the surface is set after plotting exactly if it was set or is one of the points (R46). -/
theorem pixelAt_plotAll_iff {ps : List Point} {m : Memory} (hm : m.wf = true) {x y : Nat} (hx : x < 84) (hy : y < 48) :
    pixelAt (plotAll ps m) x y = true ↔ pixelAt m x y = true ∨ ((x : Int), (y : Int)) ∈ ps := by
  rw [pixelAt_plotAll hm hx hy, Bool.or_eq_true, decide_eq_true_iff]

/-- Settles O35: the points of its four lines, or none. -/
theorem rectDrawsItsOutline : Obligations.RectDrawsItsOutline := by
  intro x y width height s hm
  refine ⟨rfl, fun hout => ?outside, fun hin => ⟨_, exec_drawing rfl s, fun px py hx hy => ?inside⟩⟩
  case outside => exact exec_rect_outside hout width height s
  case inside =>
    rw [pixelAt_plotAll_iff hm hx hy, plottedPoints, mem_rectPoints ((rectCorner_iff x y).mpr hin)]
    rfl

/-- Settles O36: the points of its rows, or none. -/
theorem rectfFillsItsRows : Obligations.RectfFillsItsRows := by
  intro x y width height s hm
  refine ⟨rfl, fun hout => ?outside, fun hin => ⟨_, exec_drawing rfl s, fun px py hx hy => ?inside⟩⟩
  case outside => exact exec_rectf_outside hout width height s
  case inside =>
    rw [pixelAt_plotAll_iff hm hx hy, plottedPoints, mem_rectfPoints ((rectCorner_iff x y).mpr hin)]
    simp only [zext, farEdge, Nat.cast_le, ← Nat.cast_add, Nat.cast_lt]

end Sys2Proof.Machine
end

section
/-! PROOF. The triangles (spec/43_rasterizer_triangle.md), O37 and O38: which points TRI and TRIF plot, from what a
horizontal line plots (R113 (c)). -/

namespace Sys2Proof.Machine

theorem mem_triPoints (x0 y0 x1 y1 x2 y2 : Int) (p : Point) :
    p ∈ triPoints x0 y0 x1 y1 x2 y2 ↔
      p ∈ linePoints x0 y0 x1 y1 ∨ p ∈ linePoints x1 y1 x2 y2 ∨ p ∈ linePoints x2 y2 x0 y0 := by
  rw [triPoints, List.mem_append, List.mem_append, or_assoc]

/-- TRIF plots, on every row from the smallest to the largest vertex row, the points between the two ends of that row's
span, whatever the span function is (R132). -/
theorem mem_trifPoints (span : Int → Int × Int) (y0 y1 y2 : Int) (p : Point) :
    p ∈ trifPoints span y0 y1 y2 ↔
      (min y0 (min y1 y2) ≤ p.2 ∧ p.2 ≤ max y0 (max y1 y2)) ∧
        min (span p.2).1 (span p.2).2 ≤ p.1 ∧ p.1 ≤ max (span p.2).1 (span p.2).2 := by
  simp only [trifPoints, List.mem_flatMap, mem_range_cast, mem_linePoints_horizontal, absNat]
  constructor
  · rintro ⟨k, hk, hrow, hcol⟩
    rw [← hrow] at hcol
    exact ⟨by omega, hcol⟩
  · rintro ⟨hrow, hcol⟩
    refine ⟨p.2 - min y0 (min y1 y2), by omega, by omega, ?_⟩
    rwa [add_sub_cancel]

/-- Settles O37: the points plotted are those of the three lines. -/
theorem triDrawsItsThreeEdges : Obligations.TriDrawsItsThreeEdges := by
  intro x0 y0 x1 y1 x2 y2 s hm
  refine ⟨rfl, _, exec_drawing rfl s, fun x y hx hy => ?_⟩
  rw [pixelAt_plotAll_iff hm hx hy, plottedPoints, mem_triPoints]
  rfl

/-- Settles O38: the points plotted are those of one horizontal line per scanline. -/
theorem trifFillsOneSpanPerScanline : Obligations.TrifFillsOneSpanPerScanline := by
  intro x0 y0 x1 y1 x2 y2 s hm
  refine ⟨rfl, _, exec_drawing rfl s, fun x y hx hy => ?_⟩
  rw [pixelAt_plotAll_iff hm hx hy, plottedPoints, mem_trifPoints]
  simp only [zext, ← Nat.cast_min, ← Nat.cast_max, Nat.cast_le, and_assoc]

end Sys2Proof.Machine
end

section
/-! PROOF. The display session family (spec/45_display_session.md), from what a run of commands and of zero frames does in
Laws/Session.lean and, for UPDATE, from its list of frames: O46 to O48. -/

namespace Sys2Proof.Machine

@[simp] theorem framesEvents_nil : framesEvents [] = [] := rfl

/-! ### The screen clear and the bring-up, completed -/

/-- `ClearScreen()` completes on a configured bus when the transport completes its 504 bytes (R153). -/
theorem clearScreen_accepts {s : State} (hb : s.busCfg = true) (ha : s.transport.accepts 504 = true) :
    clearScreen s =
      .next { s with dc := some .high, ce := some .high, trace := s.trace ++ zeroFrameEvents 504,
                     transport := s.transport.after 504 } := by
  rw [clearScreen_eq, zeroFrames_accepts hb ha]

/-- The reset pulse and the bus configuration: the first four events of INIT and what they leave (R151). -/
theorem configureBus_resetPulse (cpol cpha : Bool) (s : State) :
    configureBus cpol cpha (resetPulse s) =
      { s with rst := some .high, busCfg := true,
               trace := s.trace ++ [.rst .low, .wait1us, .rst .high, .busCfg 4000000 .msbFirst cpol cpha] } := by
  simp [configureBus, resetPulse, driveRst, emit, Config.clockHz]

/-- The bring-up commands as bytes; only the contrast and the bias are open (R151). -/
theorem bringUpBytes_eq (vop : BitVec 7) (bias : BitVec 3) :
    bringUpBytes vop bias = [0x21, 0x80 ||| vop.setWidth 8, 0x04, 0x10 ||| bias.setWidth 8, 0x20, 0x0C] := rfl

/-- INIT completes, configured or not, when the transport completes its 510 bytes: six commands, then 504 zeros (R151). -/
theorem bringUp_accepts (vop : BitVec 7) (bias : BitVec 3) (cpol cpha : Bool) {s : State}
    (ha : s.transport.accepts 510 = true) :
    bringUp vop bias cpol cpha s =
      .next { s with fb := clearBuffer s.fb, rst := some .high, ce := some .high, dc := some .high, busCfg := true,
                     trace := s.trace ++ [.rst .low, .wait1us, .rst .high, .busCfg 4000000 .msbFirst cpol cpha]
                       ++ cmdEvents (bringUpBytes vop bias) ++ zeroFrameEvents 504,
                     transport := s.transport.after 510 } := by
  rw [show 510 = 6 + 504 from rfl, Transport.accepts_add, Bool.and_eq_true] at ha
  obtain ⟨hcmds, hzeros⟩ := ha
  rw [bringUp, configureBus_resetPulse, bringUpBytes_eq, cmds_accepts rfl hcmds, thenDo_next, clearScreen_accepts rfl hzeros]
  simp only [List.length_cons, List.length_nil, Transport.after_add]

/-! ### The obligations -/

/-- Settles O46: the framebuffer left lists nothing, and an index that is not listed reads 0x00. -/
theorem initBringsUpAndClears : Obligations.InitBringsUpAndClears := by
  intro s hm ha
  refine ⟨rfl, [], fun _ _ => rfl, ?_⟩
  rw [exec_init, bringUp_accepts _ _ _ _ ha, clearBuffer_eq hm, bringUpBytes_eq]
  simp only [cmdEvents, zeroFrameEvents, List.flatMap_cons, List.flatMap_nil, List.append_nil, List.append_assoc]

/-- Settles O47: its three frames, the bytes of the third being the readout of the framebuffer. -/
theorem updateSendsTheWholeBuffer : Obligations.UpdateSendsTheWholeBuffer := by
  intro s hb ha
  refine ⟨rfl, s.fb.bytes, Memory.bytes_length s.fb, fun _ hi => Memory.bytes_getElem?_of_lt s.fb hi, ?_⟩
  rw [exec_accepts (i := .update) rfl hb ha, afterFrames_eq, framesBytes_framesOf, framesOf]
  simp only [framesEvents_cons, framesEvents_nil, List.append_nil, List.append_assoc]
  rfl

/-- Settles O48: CLRSCR is the screen clear. -/
theorem clrscrSendsZeroFrames : Obligations.ClrscrSendsZeroFrames :=
  fun _ hb ha => ⟨rfl, clearScreen_accepts hb ha⟩

end Sys2Proof.Machine
end

section
/-! PROOF. The host packets (spec/30_encoding.md section 1): the decoder as the inverse of the encoder, one
reader a packet format, and the length of a packet: O4 to O7. -/

namespace Sys2Proof

/-! ### Host packets: encode, then decode -/

/-- Settles O4, one row of R62 after another; the two length bytes of SENDDAT are read as they are written. -/
theorem decodeGivesBackEveryEncodedOperation : Obligations.DecodeGivesBackEveryEncodedOperation := by
  intro i rest hhost hwf
  cases i with
  | senddat len payload =>
    have hlen : payload.length = len.toNat := beq_iff_eq.mp hwf
    simp [encode, senddatLenBytes, decodeFV, senddatLen_bytes, ← hlen]
  | functionSet | displayControl | xAddressSet | yAddressSet | vopSet | temperatureControl | biasSystem =>
    exact absurd hhost Bool.false_ne_true
  | _ => rfl

/-! ### Host packets: decode, then encode -/

/-- `bytes` are the packet of the well-formed host operation `i`. -/
def IsPacketOf (bytes : List Byte) (i : Instr) : Prop := i.isHost = true ∧ i.wf = true ∧ bytes = encode i

/-- If the decoder's answer `d` to `bytes` is an operation, what it took from `bytes` is the packet of that operation. -/
def TakesItsPacket (bytes : List Byte) (d : Decoded) : Prop :=
  ∀ i rest, d = .ok (i, rest) → ∃ packet, IsPacketOf packet i ∧ bytes = packet ++ rest

theorem takesItsPacket_of_error (bytes : List Byte) (e : DecodeError) : TakesItsPacket bytes (.error e) :=
  fun _ _ h => nomatch h

theorem takesItsPacket_of_ok {packet : List Byte} {i : Instr} (h : IsPacketOf packet i) (rest : List Byte) :
    TakesItsPacket (packet ++ rest) (.ok (i, rest)) := by
  rintro _ _ ⟨⟩
  exact ⟨packet, h, rfl⟩

theorem decodeF1_takesItsPacket {op : Byte} {f : Byte → Instr} (hf : ∀ a, IsPacketOf [op, a] (f a)) (rest : List Byte) :
    TakesItsPacket (op :: rest) (decodeF1 f rest) := by
  match rest with
  | [] => exact takesItsPacket_of_error _ _
  | a :: tail => exact takesItsPacket_of_ok (hf a) tail

theorem decodeF2_takesItsPacket {op : Byte} {f : Byte → Byte → Instr} (hf : ∀ a b, IsPacketOf [op, a, b] (f a b))
    (rest : List Byte) : TakesItsPacket (op :: rest) (decodeF2 f rest) := by
  match rest with
  | [] | [_] => exact takesItsPacket_of_error _ _
  | a :: b :: tail => exact takesItsPacket_of_ok (hf a b) tail

theorem decodeF3_takesItsPacket {op : Byte} {f : Byte → Byte → Byte → Instr}
    (hf : ∀ a b c, IsPacketOf [op, a, b, c] (f a b c)) (rest : List Byte) :
    TakesItsPacket (op :: rest) (decodeF3 f rest) := by
  match rest with
  | [] | [_] | [_, _] => exact takesItsPacket_of_error _ _
  | a :: b :: c :: tail => exact takesItsPacket_of_ok (hf a b c) tail

theorem decodeF4_takesItsPacket {op : Byte} {f : Byte → Byte → Byte → Byte → Instr}
    (hf : ∀ a b c d, IsPacketOf [op, a, b, c, d] (f a b c d)) (rest : List Byte) :
    TakesItsPacket (op :: rest) (decodeF4 f rest) := by
  match rest with
  | [] | [_] | [_, _] | [_, _, _] => exact takesItsPacket_of_error _ _
  | a :: b :: c :: d :: tail => exact takesItsPacket_of_ok (hf a b c d) tail

theorem decodeF6_takesItsPacket {op : Byte} {f : Byte → Byte → Byte → Byte → Byte → Byte → Instr}
    (hf : ∀ a b c d e g, IsPacketOf [op, a, b, c, d, e, g] (f a b c d e g)) (rest : List Byte) :
    TakesItsPacket (op :: rest) (decodeF6 f rest) := by
  match rest with
  | [] | [_] | [_, _] | [_, _, _] | [_, _, _, _] | [_, _, _, _, _] => exact takesItsPacket_of_error _ _
  | a :: b :: c :: d :: e :: g :: tail => exact takesItsPacket_of_ok (hf a b c d e g) tail

/-- SENDDAT takes as many payload bytes as its two length bytes say, and those are the bytes of its length (R61, R63). -/
theorem decodeFV_takesItsPacket (rest : List Byte) : TakesItsPacket (0x02#8 :: rest) (decodeFV rest) := by
  match rest with
  | [] | [_] => exact takesItsPacket_of_error _ _
  | lo :: hi :: payload =>
    rw [decodeFV]
    split
    · next hlen =>
      have hpacket : IsPacketOf (0x02#8 :: lo :: hi :: payload.take (senddatLen lo hi).toNat)
          (.senddat (senddatLen lo hi) (payload.take (senddatLen lo hi).toNat)) :=
        ⟨rfl, by simp [Instr.wf, hlen], by simp [encode, senddatLenBytes_of]⟩
      simpa using takesItsPacket_of_ok hpacket (payload.drop (senddatLen lo hi).toNat)
    · exact takesItsPacket_of_error _ _

/-- After an opcode of the table: one line for each row of R62. -/
theorem decode_takesItsPacket {op : Byte} (h : formatOf op ≠ none) (rest : List Byte) :
    TakesItsPacket (op :: rest) (decode (op :: rest)) := by
  rw [formatOf_ne_none] at h
  simp only [opcodes, List.mem_cons, List.not_mem_nil, or_false] at h
  rcases h with rfl | rfl | rfl | rfl | rfl | rfl | rfl | rfl | rfl | rfl | rfl | rfl | rfl | rfl | rfl | rfl | rfl | rfl
  · exact decodeF1_takesItsPacket (f := .sendcmd) (fun _ => ⟨rfl, rfl, rfl⟩) rest
  · exact decodeFV_takesItsPacket rest
  · exact decodeF1_takesItsPacket (f := .setmode) (fun _ => ⟨rfl, rfl, rfl⟩) rest
  · exact decodeF1_takesItsPacket (f := .setcon) (fun _ => ⟨rfl, rfl, rfl⟩) rest
  · exact decodeF2_takesItsPacket (f := .setcur) (fun _ _ => ⟨rfl, rfl, rfl⟩) rest
  · exact takesItsPacket_of_ok (i := .clrbuf) ⟨rfl, rfl, rfl⟩ rest
  · exact decodeF2_takesItsPacket (f := .pixel) (fun _ _ => ⟨rfl, rfl, rfl⟩) rest
  · exact takesItsPacket_of_ok (i := .rdbuf) ⟨rfl, rfl, rfl⟩ rest
  · exact decodeF4_takesItsPacket (f := .line) (fun _ _ _ _ => ⟨rfl, rfl, rfl⟩) rest
  · exact decodeF4_takesItsPacket (f := .rect) (fun _ _ _ _ => ⟨rfl, rfl, rfl⟩) rest
  · exact decodeF4_takesItsPacket (f := .rectf) (fun _ _ _ _ => ⟨rfl, rfl, rfl⟩) rest
  · exact decodeF6_takesItsPacket (f := .tri) (fun _ _ _ _ _ _ => ⟨rfl, rfl, rfl⟩) rest
  · exact decodeF6_takesItsPacket (f := .trif) (fun _ _ _ _ _ _ => ⟨rfl, rfl, rfl⟩) rest
  · exact decodeF3_takesItsPacket (f := .circ) (fun _ _ _ => ⟨rfl, rfl, rfl⟩) rest
  · exact decodeF3_takesItsPacket (f := .circf) (fun _ _ _ => ⟨rfl, rfl, rfl⟩) rest
  · exact takesItsPacket_of_ok (i := .init) ⟨rfl, rfl, rfl⟩ rest
  · exact takesItsPacket_of_ok (i := .update) ⟨rfl, rfl, rfl⟩ rest
  · exact takesItsPacket_of_ok (i := .clrscr) ⟨rfl, rfl, rfl⟩ rest

/-- Settles O5: an empty stream and a reserved opcode decode to nothing, every other opcode to the packet it begins. -/
theorem decodedBytesAreTheEncoding : Obligations.DecodedBytesAreTheEncoding := by
  intro bytes i rest hdecode
  match bytes with
  | [] => exact nomatch hdecode
  | op :: tail =>
    by_cases hformat : formatOf op = none
    · rw [decode_reserved hformat] at hdecode
      exact nomatch hdecode
    · obtain ⟨packet, ⟨hhost, hwf, rfl⟩, hbytes⟩ := decode_takesItsPacket hformat tail i rest hdecode
      exact ⟨hhost, hwf, hbytes⟩

/-- What decodes to an operation and a rest is exactly its encoding followed by the rest (O4 and O5 together). -/
theorem decode_eq_ok_iff {bytes rest : List Byte} {i : Instr} :
    decode bytes = .ok (i, rest) ↔ i.isHost = true ∧ i.wf = true ∧ bytes = encode i ++ rest := by
  refine ⟨decodedBytesAreTheEncoding bytes i rest, ?_⟩
  rintro ⟨hhost, hwf, rfl⟩
  exact decodeGivesBackEveryEncodedOperation i rest hhost hwf

/-! ### The length of a packet -/

/-- A host operation is encoded in as many bytes as its packet has (R63). -/
theorem encode_length {i : Instr} (hhost : i.isHost = true) (hwf : i.wf = true) : (encode i).length = packetLength i := by
  cases i with
  | senddat len payload => exact Laws.EncodedLength.senddat len payload hwf
  | functionSet | displayControl | xAddressSet | yAddressSet | vopSet | temperatureControl | biasSystem =>
    exact absurd hhost Bool.false_ne_true
  | _ => rfl

/-- The first bytes of a packet give its length, whatever follows (R63). -/
theorem packetSpan_encode {i : Instr} (hhost : i.isHost = true) (rest : List Byte) :
    packetSpan (encode i ++ rest) = some (packetLength i) := by
  cases i with
  | senddat len payload =>
    change some (3 + (senddatLen (len.extractLsb' 0 8) (len.extractLsb' 8 8)).toNat) = _
    rw [senddatLen_bytes, packetLength]
  | functionSet | displayControl | xAddressSet | yAddressSet | vopSet | temperatureControl | biasSystem =>
    exact absurd hhost Bool.false_ne_true
  | _ => rfl

/-- Settles O6: the length read from the first bytes, and the number of bytes of the encoding. -/
theorem packetSpanIsTheFormatLength : Obligations.PacketSpanIsTheFormatLength :=
  fun _ rest hhost hwf => ⟨packetSpan_encode hhost rest, encode_length hhost hwf⟩

/-- Settles O7: the decoder run on each word. -/
theorem samplePacketsDecode : Obligations.SamplePacketsDecode :=
  ⟨rfl, rfl, rfl, rfl, rfl, rfl, rfl, rfl, rfl, rfl, rfl⟩

end Sys2Proof
end

section
/-! PROOF. The controller commands as bytes (spec/30_encoding.md section 2, spec/40_controller_protocol.md section 1): forming
one, reading one, and sending one: O8, O9, O20 and O21. -/

namespace Sys2Proof

/-! ### Forming a command byte -/

/-- A field below the lowest bit of the base is added by OR (R80). -/
theorem commandByte_toNat {base field : Byte} {k q : Nat} (hbase : base.toNat = 2 ^ k * q) (hfield : field.toNat < 2 ^ k) :
    (commandByte base field).toNat = base.toNat + field.toNat := by
  rw [commandByte, BitVec.toNat_or, hbase, Nat.two_pow_add_eq_or_of_lt hfield]

theorem functionSetByte_toNat (h : InstrSet) : (functionSetByte h).toNat = 0x20 + h.bits.toNat :=
  commandByte_toNat (k := 5) (q := 1) rfl (by cases h <;> decide)

theorem displayControlByte_toNat {mode : Byte} (h : mode.toNat < 8) : (displayControlByte mode).toNat = 0x08 + mode.toNat :=
  commandByte_toNat (k := 3) (q := 1) rfl h

theorem xAddressByte_toNat {x : Byte} (h : x.toNat < 128) : (xAddressByte x).toNat = 0x80 + x.toNat :=
  commandByte_toNat (k := 7) (q := 1) rfl h

theorem yAddressByte_toNat {y : Byte} (h : y.toNat < 64) : (yAddressByte y).toNat = 0x40 + y.toNat :=
  commandByte_toNat (k := 6) (q := 1) rfl h

theorem vopByte_toNat {v : Byte} (h : v.toNat < 128) : (vopByte v).toNat = 0x80 + v.toNat :=
  commandByte_toNat (k := 7) (q := 1) rfl h

theorem temperatureByte_toNat {t : Byte} (h : t.toNat < 4) : (temperatureByte t).toNat = 0x04 + t.toNat :=
  commandByte_toNat (k := 2) (q := 1) rfl h

theorem biasByte_toNat {b : Byte} (h : b.toNat < 16) : (biasByte b).toNat = 0x10 + b.toNat :=
  commandByte_toNat (k := 4) (q := 1) rfl h

theorem isMode_toNat_lt {mode : Byte} (h : Machine.isMode mode = true) : mode.toNat < 8 := by
  rcases (Machine.isMode_iff mode).mp h with rfl | rfl | rfl | rfl <;> decide

/-- Settles O9: every field FBR forms lies below the lowest bit of its base. -/
theorem commandByteIsBasePlusField : Obligations.CommandByteIsBasePlusField :=
  ⟨fun _ h => xAddressByte_toNat (by omega), fun _ h => yAddressByte_toNat (by omega), fun _ h => vopByte_toNat (by omega),
    fun _ h => displayControlByte_toNat (isMode_toNat_lt h), fun _ h => biasByte_toNat (by omega), functionSetByte_toNat, rfl⟩

/-- A field of the command's width is added to a base whose bits lie above it, as a byte. -/
theorem commandByte_setWidth {w : Nat} {base : Byte} {q : Nat} (hw : w ≤ 8) (hbase : base.toNat = 2 ^ w * q)
    (field : BitVec w) : commandByte base (field.setWidth 8) = BitVec.ofNat 8 (base.toNat + field.toNat) := by
  have hwide : (field.setWidth 8).toNat = field.toNat := BitVec.toNat_setWidth_of_le hw
  rw [← hwide, ← commandByte_toNat hbase (hwide ▸ field.isLt), BitVec.ofNat_toNat, BitVec.setWidth_eq]

/-! ### Reading a command byte -/

/-- What a byte reads as is a command of the set, well-formed, and encoded as that byte: every byte under either set. -/
theorem decodeWire_sound (iset : InstrSet) (b : Byte) :
    (decodeWire iset b).all (fun i => i.wf && i.inSet iset && encode i == [b]) = true := by
  cases iset <;> revert b <;> decide +kernel

theorem decodeWire_functionSet (iset h : InstrSet) : decodeWire iset (functionSetByte h) = some (.functionSet h) := by
  cases iset <;> cases h <;> rfl

theorem decodeWire_displayControl (mode : DisplayMode) :
    decodeWire .basic (displayControlByte mode.bits) = some (.displayControl mode) := by
  cases mode <;> rfl

theorem decodeWire_xAddressSet : ∀ x : BitVec 7, x.toNat < Config.width →
    decodeWire .basic (xAddressByte (x.setWidth 8)) = some (.xAddressSet x) := by
  decide +kernel

theorem decodeWire_yAddressSet : ∀ y : BitVec 6, y.toNat < Config.height →
    decodeWire .basic (yAddressByte (y.setWidth 8)) = some (.yAddressSet y) := by
  decide +kernel

theorem decodeWire_vopSet : ∀ v : BitVec 7, decodeWire .extended (vopByte (v.setWidth 8)) = some (.vopSet v) := by
  decide +kernel

theorem decodeWire_temperatureControl : ∀ t : BitVec 2,
    decodeWire .extended (temperatureByte (t.setWidth 8)) = some (.temperatureControl t) := by
  decide +kernel

theorem decodeWire_biasSystem : ∀ b : BitVec 3,
    decodeWire .extended (biasByte (b.setWidth 8)) = some (.biasSystem b) := by
  decide +kernel

/-- Every command is read back from its own byte under a set it belongs to: one line for each row of R67. -/
theorem decodeWire_encode {iset : InstrSet} {i : Instr} {b : Byte} (hwf : i.wf = true) (hset : i.inSet iset = true)
    (henc : encode i = [b]) : decodeWire iset b = some i := by
  cases i with
  | functionSet h => cases henc; exact decodeWire_functionSet iset h
  | displayControl mode => cases henc; cases beq_iff_eq.mp hset; exact decodeWire_displayControl mode
  | xAddressSet x => cases henc; cases beq_iff_eq.mp hset; exact decodeWire_xAddressSet x (of_decide_eq_true hwf)
  | yAddressSet y => cases henc; cases beq_iff_eq.mp hset; exact decodeWire_yAddressSet y (of_decide_eq_true hwf)
  | vopSet v => cases henc; cases beq_iff_eq.mp hset; exact decodeWire_vopSet v
  | temperatureControl t => cases henc; cases beq_iff_eq.mp hset; exact decodeWire_temperatureControl t
  | biasSystem b => cases henc; cases beq_iff_eq.mp hset; exact decodeWire_biasSystem b
  | _ => exact absurd hset Bool.false_ne_true

/-- Two different rows of one set differ in a bit that both fix, so no byte has the fixed bits of both. -/
theorem wireRows_pairwise_disjoint (iset : InstrSet) :
    (wireRows iset).Pairwise fun p q => ∀ b : Byte, (p.covers b && q.covers b) = false := by
  cases iset <;> decide +kernel

/-- Settles O8: reading is sound for every byte, and gives every command of the set back from its byte. -/
theorem wireBytesAndCommandsAgree : Obligations.WireBytesAndCommandsAgree := by
  refine ⟨fun iset i b => ⟨fun hread => ?sound, fun ⟨hwf, hset, henc⟩ => decodeWire_encode hwf hset henc⟩,
    wireRows_pairwise_disjoint⟩
  case sound =>
    have h := decodeWire_sound iset b
    rw [hread, Option.all_some, Bool.and_eq_true, Bool.and_eq_true, beq_iff_eq] at h
    obtain ⟨⟨hwf, hset⟩, henc⟩ := h
    exact ⟨hwf, hset, henc⟩

end Sys2Proof

namespace Sys2Proof.Machine

/-! ### Sending a command byte -/

/-- A command with a field is sent as its base plus its field (R67, R80). -/
theorem cmd_field_accepts {s : State} {w q : Nat} {base : Byte} (hb : s.busCfg = true) (ha : s.transport.accepts 1 = true)
    (hw : w ≤ 8) (hbase : base.toNat = 2 ^ w * q) (field : BitVec w) :
    cmd (commandByte base (field.setWidth 8)) s =
      .next (afterFrame .low [BitVec.ofNat 8 (base.toNat + field.toNat)] s) := by
  rw [commandByte_setWidth hw hbase, cmd_accepts hb ha]

/-- Settles O20: each command is `Cmd` of its byte; the selector and the modes are few, the fields are added to their base. -/
theorem controllerCommandsSendTheirByte : Obligations.ControllerCommandsSendTheirByte := by
  intro s hb ha
  refine ⟨fun h => ?selector, cmd_accepts hb ha, cmd_accepts hb ha, cmd_accepts hb ha, cmd_accepts hb ha,
    cmd_field_accepts (q := 1) hb ha (by decide) rfl, cmd_field_accepts (q := 1) hb ha (by decide) rfl,
    cmd_field_accepts (q := 1) hb ha (by decide) rfl, cmd_field_accepts (q := 1) hb ha (by decide) rfl,
    cmd_field_accepts (q := 2) hb ha (by decide) rfl⟩
  case selector =>
    rw [exec_functionSet, cmd_accepts hb ha]
    cases h <;> rfl

/-- Settles O21: a controller command is `Cmd` of its byte, and so is SENDCMD. -/
theorem sendcmdCarriesAnyControllerCommand : Obligations.SendcmdCarriesAnyControllerCommand := by
  intro i b s hhost henc
  cases i with
  | functionSet | displayControl | xAddressSet | yAddressSet | vopSet | temperatureControl | biasSystem =>
    cases henc
    rfl
  | _ => exact absurd hhost.symm Bool.false_ne_true

end Sys2Proof.Machine
end

section
/-! PROOF. What an operation can answer, said once for all of them: the next state, operation by operation, or the state it is
stuck in. From it the rules of the whole machine about single operations: O23, O53, O55, O57, O58 and O60. -/

namespace Sys2Proof.Machine

/-! ### What frames leave alone -/

@[simp] theorem afterFrames_fb (fs : List (Level × List Byte)) (s : State) : (afterFrames fs s).fb = s.fb := by
  rw [afterFrames_eq]

@[simp] theorem afterFrames_rst (fs : List (Level × List Byte)) (s : State) : (afterFrames fs s).rst = s.rst := by
  rw [afterFrames_eq]

@[simp] theorem afterFrames_busCfg (fs : List (Level × List Byte)) (s : State) : (afterFrames fs s).busCfg = s.busCfg := by
  rw [afterFrames_eq]

@[simp] theorem afterFrames_cp (fs : List (Level × List Byte)) (s : State) : (afterFrames fs s).cp = s.cp := by
  rw [afterFrames_eq]

@[simp] theorem afterFrames_trace (fs : List (Level × List Byte)) (s : State) :
    (afterFrames fs s).trace = s.trace ++ framesEvents fs := by
  rw [afterFrames_eq]

@[simp] theorem afterFrames_hostOut (fs : List (Level × List Byte)) (s : State) : (afterFrames fs s).hostOut = s.hostOut := by
  rw [afterFrames_eq]

@[simp] theorem afterFrames_cmd (fs : List (Level × List Byte)) (s : State) : (afterFrames fs s).cmd = s.cmd := by
  rw [afterFrames_eq]

@[simp] theorem afterFrames_transport (fs : List (Level × List Byte)) (s : State) :
    (afterFrames fs s).transport = s.transport.after (framesBytes fs) := by
  rw [afterFrames_eq]

theorem afterFrames_append (fs gs : List (Level × List Byte)) (s : State) :
    afterFrames (fs ++ gs) s = afterFrames gs (afterFrames fs s) := by
  simp [afterFrames]

/-- What commutes with one frame commutes with frames one after another. -/
theorem afterFrames_comm {g : State → State} (hg : ∀ dc bs s, g (afterFrame dc bs s) = afterFrame dc bs (g s))
    (fs : List (Level × List Byte)) (s : State) : g (afterFrames fs s) = afterFrames fs (g s) := by
  induction fs generalizing s with
  | nil => rfl
  | cons f fs ih => exact (ih _).trans (congrArg _ (hg _ _ _))

/-- Frames do not read the framebuffer. -/
theorem afterFrames_withFb (m : Memory) (fs : List (Level × List Byte)) (s : State) :
    { afterFrames fs s with fb := m } = afterFrames fs { s with fb := m } :=
  afterFrames_comm (g := fun t => { t with fb := m }) (fun _ _ _ => rfl) fs s

/-! ### INIT -/

/-- INIT's start: the reset pulse and the bus configuration (R151). -/
def initStart (s : State) : State := configureBus Config.cpol Config.cpha (resetPulse s)

/-- The first four events of INIT (R151). -/
def initStartEvents : List Event :=
  [.rst .low, .wait1us, .rst .high, .busCfg 4000000 .msbFirst Config.cpol Config.cpha]

theorem initStart_eq (s : State) :
    initStart s = { s with rst := some .high, busCfg := true, trace := s.trace ++ initStartEvents } :=
  configureBus_resetPulse _ _ s

@[simp] theorem initStart_fb (s : State) : (initStart s).fb = s.fb := rfl

/-- The state INIT leaves: all its frames sent from its start, the framebuffer cleared (R151). -/
def afterInit (s : State) : State := afterFrames (framesOf s.fb .init) { initStart s with fb := clearBuffer s.fb }

/-- The command frames of the bring-up (R151). -/
def bringUpFrames : List (Level × List Byte) := (bringUpBytes Config.vopInit Config.biasInit).map fun b => (.low, [b])

/-- The data frames of the screen clear (R153). -/
def screenFrames : List (Level × List Byte) := List.replicate Config.fbSize (.high, [0x00])

theorem framesOf_init (fb : Memory) : framesOf fb .init = bringUpFrames ++ screenFrames := rfl

theorem exec_init_eq (s : State) :
    exec .init s =
      thenDo (sendFrames bringUpFrames (initStart s)) fun t => sendFrames screenFrames { t with fb := clearBuffer t.fb } :=
  exec_init_eq_sendFrames s

theorem framesBytes_init : framesBytes bringUpFrames + framesBytes screenFrames = bytesSent .init := by
  rw [← framesBytes_append, ← framesOf_init [], framesBytes_framesOf]

@[simp] theorem afterInit_fb (s : State) : (afterInit s).fb = clearBuffer s.fb := by simp [afterInit]
@[simp] theorem afterInit_cp (s : State) : (afterInit s).cp = s.cp := by simp [afterInit, initStart_eq]
@[simp] theorem afterInit_cmd (s : State) : (afterInit s).cmd = s.cmd := by simp [afterInit, initStart_eq]
@[simp] theorem afterInit_hostOut (s : State) : (afterInit s).hostOut = s.hostOut := by simp [afterInit, initStart_eq]
@[simp] theorem afterInit_busCfg (s : State) : (afterInit s).busCfg = true := by simp [afterInit, initStart_eq]

@[simp] theorem afterInit_trace (s : State) :
    (afterInit s).trace = s.trace ++ initStartEvents ++ framesEvents (framesOf s.fb .init) := by
  simp [afterInit, initStart_eq]

@[simp] theorem afterInit_transport (s : State) : (afterInit s).transport = s.transport.after (bytesSent .init) := by
  simp [afterInit, initStart_eq, framesBytes_framesOf]

/-- The bring-up frames complete when the transport completes their bytes: INIT has configured the bus itself (R184). -/
theorem bringUpFrames_accepts {s : State} (ha : s.transport.accepts (framesBytes bringUpFrames) = true) :
    exec .init s = sendFrames screenFrames (afterFrames bringUpFrames { initStart s with fb := clearBuffer s.fb }) := by
  rw [exec_init_eq, sendFrames_accepts (s := initStart s) rfl ha, thenDo_next, afterFrames_fb, initStart_fb]
  exact congrArg (sendFrames screenFrames) (afterFrames_withFb (clearBuffer s.fb) bringUpFrames (initStart s))

/-- INIT completes, configured or not, when the transport completes its bytes (R151). -/
theorem exec_init_accepts {s : State} (ha : s.transport.accepts (bytesSent .init) = true) :
    exec .init s = .next (afterInit s) := by
  rw [← framesBytes_init, Transport.accepts_add, Bool.and_eq_true] at ha
  obtain ⟨hcmds, hscreen⟩ := ha
  rw [bringUpFrames_accepts hcmds, sendFrames_accepts (by simp [initStart_eq]) (by simpa [initStart_eq] using hscreen),
    ← afterFrames_append]
  rfl

/-! ### An operation that the transport does not let complete -/

/-- A transport completes the next `n` bytes, or it stalls before the last of them. -/
theorem Transport.accepts_or_stalls (t : Transport) (n : Nat) :
    t.accepts n = true ∨ ∃ k, t = .stallsAfter k ∧ k < n := by
  cases t with
  | live => exact .inl rfl
  | stallsAfter k =>
    by_cases h : n ≤ k
    · exact .inl (decide_eq_true h)
    · exact .inr ⟨k, rfl, by omega⟩

/-- The state stuck in a frame: chip enable low, `sent` appended to the trace, the transport completing nothing more (R166). -/
def stuckAfter (dc : Level) (sent : List Event) (s : State) : State :=
  { s with dc := some dc, ce := some .low, trace := s.trace ++ sent, transport := .stallsAfter 0 }

/-- `events` are cut at byte `unsent`, after `k` bytes have been sent. -/
def CutAt (k : Nat) (events sent : List Event) (unsent : Byte) (later : List Event) : Prop :=
  events = sent ++ .tx unsent :: later ∧ (sentBytes sent).length = k

theorem stuckAfter_afterFrames (dc : Level) (sent : List Event) (fs : List (Level × List Byte)) (s : State) :
    stuckAfter dc sent (afterFrames fs s) = stuckAfter dc (framesEvents fs ++ sent) s := by
  rw [afterFrames_eq]
  simp [stuckAfter]

theorem sentBytes_framesEvents_length (fs : List (Level × List Byte)) :
    (sentBytes (framesEvents fs)).length = framesBytes fs := by
  induction fs with
  | nil => rfl
  | cons f fs ih => simp [ih]

/-- A cut in later frames is a cut after all that comes before them. -/
theorem CutAt.append_left {k : Nat} {events sent later : List Event} {unsent : Byte} (h : CutAt k events sent unsent later)
    (fs : List (Level × List Byte)) :
    CutAt (framesBytes fs + k) (framesEvents fs ++ events) (framesEvents fs ++ sent) unsent later := by
  obtain ⟨hevents, hlen⟩ := h
  exact ⟨by rw [hevents, List.append_assoc], by rw [sentBytes_append, List.length_append, sentBytes_framesEvents_length, hlen]⟩

/-- A cut in earlier frames has all later events behind it. -/
theorem CutAt.append_right {k : Nat} {events sent later : List Event} {unsent : Byte}
    (h : CutAt k events sent unsent later) (more : List Event) : CutAt k (events ++ more) sent unsent (later ++ more) := by
  obtain ⟨hevents, hlen⟩ := h
  exact ⟨by rw [hevents, List.append_assoc, List.cons_append], hlen⟩

/-- An operation that sends frames is stuck in the frame of the byte that is never sent (R166). -/
theorem exec_stalls {i : Instr} {s : State} {k : Nat} (hi : sendsFrame i = true) (hb : s.busCfg = true)
    (ht : s.transport = .stallsAfter k) (hk : k < bytesSent i) :
    ∃ dc sent unsent later, exec i s = .fault (.transferNeverCompletes (stuckAfter dc sent s)) ∧
      CutAt k (framesEvents (framesOf s.fb i)) sent unsent later := by
  rw [exec_eq_sendFrames hi]
  exact sendFrames_stalls hb ht (by rwa [framesBytes_framesOf])

/-- INIT is stuck in a bring-up frame, or with the framebuffer cleared in a frame of the screen clear (R166). -/
theorem exec_init_stalls {s : State} {k : Nat} (ht : s.transport = .stallsAfter k) (hk : k < bytesSent .init) :
    ∃ fb dc sent unsent later,
      exec .init s = .fault (.transferNeverCompletes (stuckAfter dc sent { initStart s with fb := fb })) ∧
        CutAt k (framesEvents (framesOf s.fb .init)) sent unsent later := by
  rw [← framesBytes_init] at hk
  have hevents : framesEvents (framesOf s.fb .init) = framesEvents bringUpFrames ++ framesEvents screenFrames :=
    List.flatMap_append
  rw [hevents]
  by_cases hcmds : k < framesBytes bringUpFrames
  · obtain ⟨dc, sent, unsent, later, hstuck, hcut⟩ := sendFrames_stalls (s := initStart s) rfl ht hcmds
    refine ⟨s.fb, dc, sent, unsent, later ++ framesEvents screenFrames, ?_, CutAt.append_right hcut _⟩
    rw [exec_init_eq, hstuck]
    rfl
  · obtain ⟨n, rfl⟩ : ∃ n, k = framesBytes bringUpFrames + n := Nat.exists_eq_add_of_le (Nat.not_lt.mp hcmds)
    have ha : s.transport.accepts (framesBytes bringUpFrames) = true := by simp [ht, Transport.accepts]
    obtain ⟨dc, sent, unsent, later, hstuck, hcut⟩ := sendFrames_stalls (fs := screenFrames) (k := n)
      (s := afterFrames bringUpFrames { initStart s with fb := clearBuffer s.fb }) (by simp [initStart_eq])
      (by simp [initStart_eq, ht, Transport.after]) (by omega)
    refine ⟨clearBuffer s.fb, dc, framesEvents bringUpFrames ++ sent, unsent, later, ?_, CutAt.append_left hcut _⟩
    rw [bringUpFrames_accepts ha, hstuck, ← stuckAfter_afterFrames]
    rfl

/-! ### An operation that sends frames, and one that sends none -/

/-- An operation that sends frames and completes does so on a configured bus, its frames being all it does. -/
theorem exec_sends_next {i : Instr} {s t : State} (hi : sendsFrame i = true) (h : exec i s = .next t) :
    s.busCfg = true ∧ s.transport.accepts (bytesSent i) = true ∧ t = afterFrames (framesOf s.fb i) s := by
  cases hb : s.busCfg with
  | false => exact nomatch (exec_refused hi hb).symm.trans h
  | true =>
    rcases s.transport.accepts_or_stalls (bytesSent i) with ha | ⟨k, ht, hk⟩
    · exact ⟨rfl, ha, (Host.Outcome.next.inj ((exec_accepts hi hb ha).symm.trans h)).symm⟩
    · obtain ⟨_, _, _, _, hstuck, -⟩ := exec_stalls hi hb ht hk
      exact nomatch hstuck.symm.trans h

/-- INIT completes only if the transport completes all its bytes. -/
theorem exec_init_next {s t : State} (h : exec .init s = .next t) :
    s.transport.accepts (bytesSent .init) = true ∧ t = afterInit s := by
  rcases s.transport.accepts_or_stalls (bytesSent .init) with ha | ⟨k, ht, hk⟩
  · exact ⟨ha, (Host.Outcome.next.inj ((exec_init_accepts ha).symm.trans h)).symm⟩
  · obtain ⟨_, _, _, _, _, hstuck, -⟩ := exec_init_stalls ht hk
    exact nomatch hstuck.symm.trans h

/-- An operation that sends no frame, INIT apart, asks nothing of the transport. -/
theorem bytesSent_of_silent {i : Instr} (hi : sendsFrame i = false) (hinit : i ≠ .init) : bytesSent i = 0 := by
  cases i with
  | init => exact absurd rfl hinit
  | setmode mode => exact if_neg (Bool.eq_false_iff.mp hi)
  | setcur x y =>
    have hinside := mt (sendsFrame_setcur x y).mpr (Bool.eq_false_iff.mp hi)
    exact if_pos (by simp only [Config.width, Config.height]; omega)
  | clrbuf | rdbuf | pixel | line | rect | rectf | tri | trif | circ | circf => rfl
  | _ => exact absurd hi.symm Bool.false_ne_true

/-! ### What an operation can answer -/

/-- `Completes i s t`: the operation `i` completes in `s` and leaves `t`. -/
inductive Completes : Instr → State → State → Prop where
  /-- INIT, in every state (R151). -/
  | init {s : State} (ha : s.transport.accepts (bytesSent .init) = true) : Completes .init s (afterInit s)
  /-- An operation that sends frames, on a configured bus. -/
  | sends {i : Instr} {s : State} (hi : sendsFrame i = true) (hb : s.busCfg = true)
      (ha : s.transport.accepts (bytesSent i) = true) : Completes i s (afterFrames (framesOf s.fb i) s)
  /-- A drawing operation (R110). -/
  | draws {i : Instr} {s : State} (hi : isDrawing i = true) :
      Completes i s { s with fb := plotAll (plottedPoints i) s.fb }
  /-- CLRBUF (R103). -/
  | clrbuf {s : State} : Completes .clrbuf s { s with fb := clearBuffer s.fb }
  /-- RDBUF (R104). -/
  | rdbuf {s : State} : Completes .rdbuf s { s with hostOut := s.hostOut ++ s.fb.bytes }
  /-- SETMODE of an invalid mode (R85). -/
  | invalidMode {mode : Byte} {s : State} (hmode : isMode mode = false) : Completes (.setmode mode) s s
  /-- SETCUR outside the surface (R87). -/
  | cursorOutside {x y : Byte} {s : State} (hout : 84 ≤ x.toNat ∨ 48 ≤ y.toNat) : Completes (.setcur x y) s s

/-- An operation that sends no frame completes in every state: it draws, clears, reads out, or does nothing at all. -/
theorem completes_of_silent {i : Instr} (hi : sendsFrame i = false) (hinit : i ≠ .init) (s : State) :
    ∃ t, Completes i s t ∧ exec i s = .next t := by
  cases i with
  | init => exact absurd rfl hinit
  | clrbuf => exact ⟨_, .clrbuf, rfl⟩
  | rdbuf => exact ⟨_, .rdbuf, rfl⟩
  | setmode mode => exact ⟨_, .invalidMode hi, exec_setmode_invalid hi s⟩
  | setcur x y =>
    have hinside := mt (sendsFrame_setcur x y).mpr (Bool.eq_false_iff.mp hi)
    have hout : 84 ≤ x.toNat ∨ 48 ≤ y.toNat := by omega
    exact ⟨_, .cursorOutside hout, exec_setcur_outside hout s⟩
  | pixel | line | rect | rectf | tri | trif | circ | circf => exact ⟨_, .draws rfl, exec_drawing rfl s⟩
  | _ => exact absurd hi.symm Bool.false_ne_true

/-- All that an operation can do when it answers a next state. -/
theorem exec_eq_next_iff {i : Instr} {s t : State} : exec i s = .next t ↔ Completes i s t := by
  constructor
  · intro h
    by_cases hinit : i = .init
    · subst hinit
      obtain ⟨ha, ht⟩ := exec_init_next h
      exact ht ▸ .init ha
    cases hi : sendsFrame i with
    | false =>
      obtain ⟨u, hu, hexec⟩ := completes_of_silent hi hinit s
      obtain rfl := Host.Outcome.next.inj (hexec.symm.trans h)
      exact hu
    | true =>
      obtain ⟨hb, ha, rfl⟩ := exec_sends_next hi h
      exact .sends hi hb ha
  · rintro (ha | ⟨hi, hb, ha⟩ | hi | - | - | hmode | hout)
    · exact exec_init_accepts ha
    · exact exec_accepts hi hb ha
    · exact exec_drawing hi s
    · rfl
    · rfl
    · exact exec_setmode_invalid hmode s
    · exact exec_setcur_outside hout s

/-! ### The obligations -/

/-- Settles O53: each register is read off the state each operation leaves. -/
theorem eachRegisterHasItsWriters : Obligations.EachRegisterHasItsWriters := by
  intro i s t h
  rcases exec_eq_next_iff.mp h with ha | ⟨hi, hb, ha⟩ | hi | - | - | hmode | hout
  case sends | draws => simp [hi]
  case init | clrbuf | rdbuf | invalidMode | cursorOutside => simp

/-- The frames of every operation but UPDATE are the same whatever the framebuffer holds (R90). -/
theorem framesOf_eq_of_ne_update {i : Instr} (hi : i ≠ .update) (m m' : Memory) : framesOf m i = framesOf m' i := by
  cases i with
  | update => exact absurd rfl hi
  | _ => rfl

/-- Settles O58: its frames are the same, and frames read neither the framebuffer nor the host read channel. -/
theorem protocolIgnoresTheFramebuffer : Obligations.ProtocolIgnoresTheFramebuffer := by
  intro i s t m h hi hne hexec
  obtain ⟨hb, ha, rfl⟩ := exec_sends_next hi hexec
  rw [exec_accepts (s := { s with fb := m, hostOut := h }) hi hb ha, framesOf_eq_of_ne_update hne m s.fb,
    ← afterFrames_comm (g := fun u => { u with fb := m, hostOut := h }) fun _ _ _ => rfl]

/-- INIT does not see what the framebuffer held: it clears it, and its frames do not carry it (R183). -/
theorem afterInit_withFb {s : State} {m : Memory} (hs : s.fb.wf = true) (hm : m.wf = true) :
    afterInit { s with fb := m } = afterInit s := by
  rw [afterInit, afterInit, clearBuffer_eq hs, clearBuffer_eq hm]
  rfl

/-- Settles O57: either way the framebuffer left lists nothing. -/
theorem clearingForgetsTheFramebuffer : Obligations.ClearingForgetsTheFramebuffer := by
  intro s t m hs hm
  refine ⟨fun h => ?init, fun h => ?clrbuf⟩
  case init =>
    obtain ⟨ha, ht⟩ := exec_init_next h
    rw [exec_init_accepts (s := { s with fb := m }) ha, afterInit_withFb hs hm, ht]
  case clrbuf =>
    rw [exec_clrbuf_of_wf hs] at h
    rw [exec_clrbuf_of_wf (s := { s with fb := m }) hm, ← h]

/-- The operations of R183 send no frame. -/
theorem silent_of_needsNoInit {i : Instr} (h : needsNoInit i = true) : sendsFrame i = false ∧ i ≠ .init := by
  cases i with
  | clrbuf | rdbuf | pixel | line | rect | rectf | tri | trif | circ | circf => exact ⟨rfl, nofun⟩
  | _ => exact absurd h Bool.false_ne_true

/-- Settles O55: INIT, an operation that sends frames, and one that sends none. -/
theorem everyOperationCompletes : Obligations.EveryOperationCompletes := by
  intro i s
  refine ⟨fun hbus ha => ?completes, fun h => ?needsNoInit⟩
  case completes =>
    by_cases hinit : i = .init
    · subst hinit
      exact ⟨_, exec_init_accepts ha, afterInit_transport s⟩
    cases hi : sendsFrame i with
    | true =>
      have hb : s.busCfg = true := hbus.resolve_right (by simp [hi])
      exact ⟨_, exec_accepts hi hb ha, by rw [afterFrames_transport, framesBytes_framesOf]⟩
    | false =>
      obtain ⟨t, -, hexec⟩ := completes_of_silent hi hinit s
      obtain ⟨-, -, -, hwires, -⟩ := eachRegisterHasItsWriters i s t hexec
      obtain ⟨-, -, -, htransport⟩ := hwires hinit hi
      exact ⟨t, hexec, by rw [bytesSent_of_silent hi hinit, Transport.after_zero, htransport]⟩
  case needsNoInit =>
    obtain ⟨hi, hinit⟩ := silent_of_needsNoInit h
    obtain ⟨t, -, hexec⟩ := completes_of_silent hi hinit s
    exact ⟨t, hexec⟩

/-! ### The least time -/

theorem leastNanoseconds_append (t u : List Event) : leastNanoseconds (t ++ u) = leastNanoseconds t + leastNanoseconds u := by
  simp [leastNanoseconds]

/-- A frame takes 2 microseconds a byte (R197). -/
theorem leastNanoseconds_frameEvents (dc : Level) (bytes : List Byte) :
    leastNanoseconds (frameEvents dc bytes) = 2000 * bytes.length := by
  have htx : leastNanoseconds (bytes.map .tx) = 2000 * bytes.length := by
    induction bytes with
    | nil => rfl
    | cons b bytes ih =>
      rw [List.map_cons, ← List.singleton_append, leastNanoseconds_append, ih, List.length_cons, Nat.mul_succ, Nat.add_comm]
      rfl
  rw [frameEvents, leastNanoseconds_append, leastNanoseconds_append, htx]
  exact Nat.zero_add _

theorem leastNanoseconds_framesEvents (fs : List (Level × List Byte)) :
    leastNanoseconds (framesEvents fs) = 2000 * framesBytes fs := by
  induction fs with
  | nil => rfl
  | cons f fs ih =>
    rw [framesEvents_cons, leastNanoseconds_append, leastNanoseconds_frameEvents, ih, framesBytes_cons, Nat.mul_add]

/-- The frames of an operation take 2 microseconds for each byte it sends. -/
theorem leastNanoseconds_framesOf (fb : Memory) (i : Instr) :
    leastNanoseconds (framesEvents (framesOf fb i)) = 2000 * bytesSent i := by
  rw [leastNanoseconds_framesEvents, framesBytes_framesOf]

/-- What an operation that sends frames appends takes 2 microseconds a byte. -/
theorem leastNanoseconds_of_sends {i : Instr} {s t : State} (hi : sendsFrame i = true) (h : exec i s = .next t) :
    leastNanoseconds t.trace = leastNanoseconds s.trace + 2000 * bytesSent i := by
  obtain ⟨-, -, rfl⟩ := exec_sends_next hi h
  rw [afterFrames_trace, leastNanoseconds_append, leastNanoseconds_framesOf]

/-- Settles O60: 506, 504 and 510 bytes, and INIT's wait of 1 microsecond. -/
theorem sessionTransfersTakeTheirLeastTime : Obligations.SessionTransfersTakeTheirLeastTime := by
  intro s t
  refine ⟨leastNanoseconds_of_sends rfl, leastNanoseconds_of_sends rfl, fun h => ?init⟩
  case init =>
    obtain ⟨-, ht⟩ := exec_init_next h
    rw [ht, afterInit_trace, leastNanoseconds_append, leastNanoseconds_append, leastNanoseconds_framesOf, Nat.add_assoc]
    rfl

/-! ### The stuck transfer -/

/-- What O23 says of an operation that is stuck after `k` bytes: the stuck state and the same operation with a live
transport, whose trace is cut just before the byte never sent (R166). -/
def StuckAtByte (i : Instr) (s : State) (k : Nat) : Prop :=
  ∃ (stuck finished : State) (unsent : Byte) (later : List Event),
    exec i s = .fault (.transferNeverCompletes stuck)
      ∧ stuck.ce = some .low ∧ stuck.cp = s.cp ∧ stuck.cmd = s.cmd ∧ stuck.hostOut = s.hostOut
      ∧ (i ≠ .init → stuck.fb = s.fb ∧ stuck.rst = s.rst ∧ stuck.busCfg = s.busCfg)
      ∧ s.trace <+: stuck.trace ∧ (sentBytes stuck.trace).length = (sentBytes s.trace).length + k
      ∧ exec i { s with transport := .live } = .next finished
      ∧ finished.trace = stuck.trace ++ .tx unsent :: later

theorem stuckAtByte_of_sends {i : Instr} {s : State} {k : Nat} (hi : sendsFrame i = true) (hb : s.busCfg = true)
    (ht : s.transport = .stallsAfter k) (hk : k < bytesSent i) : StuckAtByte i s k := by
  obtain ⟨dc, sent, unsent, later, hstuck, hcut, hlen⟩ := exec_stalls hi hb ht hk
  refine ⟨_, _, unsent, later, hstuck, rfl, rfl, rfl, rfl, fun _ => ⟨rfl, rfl, rfl⟩, List.prefix_append _ _, ?count,
    exec_accepts (s := { s with transport := .live }) hi hb rfl, ?cut⟩
  case count => rw [stuckAfter, sentBytes_append, List.length_append, hlen]
  case cut => rw [afterFrames_trace, hcut, stuckAfter, List.append_assoc]

theorem sentBytes_initStartEvents : sentBytes initStartEvents = [] := rfl

theorem stuckAtByte_init {s : State} {k : Nat} (ht : s.transport = .stallsAfter k) (hk : k < bytesSent .init) :
    StuckAtByte .init s k := by
  obtain ⟨fb, dc, sent, unsent, later, hstuck, hcut, hlen⟩ := exec_init_stalls ht hk
  have htrace : (stuckAfter dc sent { initStart s with fb := fb }).trace = s.trace ++ initStartEvents ++ sent := by
    rw [stuckAfter, initStart_eq]
  refine ⟨_, _, unsent, later, hstuck, rfl, rfl, rfl, rfl, fun h => absurd rfl h, ?grows, ?count,
    exec_init_accepts (s := { s with transport := .live }) rfl, ?cut⟩
  case grows => simp [htrace]
  case count =>
    rw [htrace, sentBytes_append, sentBytes_append, sentBytes_initStartEvents, List.append_nil, List.length_append, hlen]
  case cut =>
    rw [afterInit_trace, hcut, htrace]
    simp only [List.append_assoc]

/-- An operation that sends a byte sends a frame, INIT apart. -/
theorem sendsFrame_of_bytesSent {i : Instr} {k : Nat} (hk : k < bytesSent i) (hinit : i ≠ .init) : sendsFrame i = true := by
  by_contra hi
  rw [bytesSent_of_silent (Bool.eq_false_iff.mpr hi) hinit] at hk
  exact Nat.not_lt_zero k hk

/-- Settles O23: the frame of SENDDAT and of SENDCMD, and every operation by its frames. -/
theorem stalledTransferSticksInsideTheFrame : Obligations.StalledTransferSticksInsideTheFrame := by
  intro s k ht
  refine ⟨fun hb len payload hlen hk => ?senddat, fun hb byte hk => ?sendcmd, fun i hbus hk => ?every⟩
  case senddat =>
    have htake : payload.take len.toNat = payload := List.take_of_length_le hlen.le
    rw [exec_senddat, htake, data_stalls hb ht (by rwa [hlen])]
    rfl
  case sendcmd =>
    subst hk
    rw [exec_sendcmd, cmd_stalls hb (by rw [ht]; rfl), stuckInFrame, ← ht]
    rfl
  case every =>
    by_cases hinit : i = .init
    · subst hinit
      exact stuckAtByte_init ht hk
    · exact stuckAtByte_of_sends (sendsFrame_of_bytesSent hk hinit) (hbus.resolve_right hinit) ht hk

end Sys2Proof.Machine
end

section
/-! PROOF. The invariant (O2, O3), the step at the packet it decodes (O10, O12 to O14, O54) and the run of a whole program
(O56). -/

namespace Sys2Proof.Machine

/-! ### The invariant at reset and through frames -/

/-- Settles O2: nothing has been written, sent or read out. -/
theorem powerOnMeetsTheInvariant : Obligations.PowerOnMeetsTheInvariant := by
  intro s hs
  obtain ⟨hm, hrst, hce, hdc, hbus, hcp, htrace, hout⟩ := (powerOn_iff s).mp hs
  exact {
    memory := hm
    pointer := hcp ▸ Nat.zero_le _
    framed := by rw [htrace]; rfl
    rstLast := by rw [htrace, hrst]; rfl
    ceLast := by rw [htrace, hce]; rfl
    dcLast := by rw [htrace, hdc]; rfl
    bus := by rw [htrace, hbus]; rfl
    idle := by simp [hce]
    readouts := by rw [hout]; rfl }

/-- One complete frame keeps the invariant (R29). -/
theorem Inv.afterFrame {s : State} (h : Inv s) (dc : Level) (bytes : List Byte) : Inv (afterFrame dc bytes s) where
  memory := h.memory
  pointer := h.pointer
  framed := framesClosed_frameEvents h.framed dc bytes
  rstLast := h.rstLast.trans (lastRst_frameEvents _ dc bytes).symm
  ceLast := (lastCe_frameEvents _ dc bytes).symm
  dcLast := (lastDc_frameEvents _ dc bytes).symm
  bus := h.bus.trans (busConfigured_frameEvents _ dc bytes).symm
  idle := by simp
  readouts := h.readouts

theorem Inv.afterFrames {s : State} (h : Inv s) (fs : List (Level × List Byte)) : Inv (afterFrames fs s) := by
  induction fs generalizing s with
  | nil => exact h
  | cons f fs ih => exact ih (h.afterFrame f.1 f.2)

theorem Inv.withFb {s : State} (h : Inv s) {m : Memory} (hm : m.wf = true) : Inv { s with fb := m } :=
  ⟨hm, h.pointer, h.framed, h.rstLast, h.ceLast, h.dcLast, h.bus, h.idle, h.readouts⟩

/-- One readout more is 504 bytes more (R104). -/
theorem Inv.withReadout {s : State} (h : Inv s) : Inv { s with hostOut := s.hostOut ++ s.fb.bytes } :=
  ⟨h.memory, h.pointer, h.framed, h.rstLast, h.ceLast, h.dcLast, h.bus, h.idle, by
    rw [List.length_append, Memory.bytes_length, Nat.add_mod_right]
    exact h.readouts⟩

/-- The first four events of INIT write the reset line and configure the bus, between frames (R151). -/
theorem scanFrames_initStartEvents (t : List Event) : scanFrames (t ++ initStartEvents) = scanFrames t := by
  rw [scanFrames_append]
  rfl

theorem Inv.initStart {s : State} (h : Inv s) : Inv (initStart s) where
  memory := h.memory
  pointer := h.pointer
  framed := by
    rw [initStart_eq, framesClosed, scanFrames_initStartEvents]
    exact h.framed
  rstLast := by simp [initStart_eq, initStartEvents, lastRst, Event.rstLevel]
  ceLast := h.ceLast.trans (by simp [initStart_eq, initStartEvents, lastCe, Event.ceLevel])
  dcLast := h.dcLast.trans (by simp [initStart_eq, initStartEvents, lastDc, Event.dcLevel])
  bus := by simp [initStart_eq, initStartEvents, busConfigured, Event.isBusCfg]
  idle := h.idle
  readouts := h.readouts

/-- A clear leaves the canonical form (R100). -/
theorem clearBuffer_wf {m : Memory} (hm : m.wf = true) : (clearBuffer m).wf = true := by
  rw [clearBuffer_eq hm]
  rfl

/-- Every operation that completes keeps the invariant. -/
theorem Inv.completes {i : Instr} {s t : State} (h : Inv s) (hexec : Completes i s t) : Inv t := by
  cases hexec with
  | init => exact (h.initStart.withFb (clearBuffer_wf h.memory)).afterFrames _
  | sends => exact h.afterFrames _
  | draws => exact h.withFb (plotAll_wf h.memory)
  | clrbuf => exact h.withFb (clearBuffer_wf h.memory)
  | rdbuf => exact h.withReadout
  | invalidMode | cursorOutside => exact h

/-! ### The step -/

/-- Settles O12: at the end of the stream the step answers the state itself. -/
theorem finishedRunStaysAsItIs : Obligations.FinishedRunStaysAsItIs :=
  fun s h => if_pos (decide_eq_true (show s.cp = s.cmd.length from h))

/-- Before the end of the stream the step is the decoded operation, then the move of the pointer (R60). -/
theorem step_of_decode {s : State} {i : Instr} {rest : List Byte} (hcp : s.cp ≠ s.cmd.length)
    (h : decode (s.cmd.drop s.cp) = .ok (i, rest)) : step s = thenDo (exec i s) (retire i) := by
  simp [step, runOver, hcp, fetch_of_decode_ok h]

/-- Settles O10: the step is the operation, then the move of the pointer, and a stop stays a stop. -/
theorem stepRunsTheDecodedOperation : Obligations.StepRunsTheDecodedOperation := by
  intro s i rest hcp hdecode
  rw [step_of_decode hcp.ne hdecode]
  refine ⟨fun t h => ?_, fun f h => ?_, fun r h => ?_⟩ <;> rw [h] <;> rfl

/-- All that a step before the end of the stream can do when it answers a next state: there is a whole packet at `cp`, its
operation completes, and the pointer moves past it. -/
theorem step_next {s t : State} (h : step s = .next t) (hcp : s.cp ≠ s.cmd.length) :
    ∃ (i : Instr) (rest : List Byte) (m : State), decode (s.cmd.drop s.cp) = .ok (i, rest) ∧ exec i s = .next m ∧
      t = { m with cp := m.cp + packetLength i } := by
  cases hdecode : decode (s.cmd.drop s.cp) with
  | error e => simp [step, runOver, hcp, fetch_of_decode_error hdecode] at h
  | ok d =>
    obtain ⟨i, rest⟩ := d
    rw [step_of_decode hcp hdecode, thenDo_eq_next] at h
    obtain ⟨m, hexec, hretire⟩ := h
    exact ⟨i, rest, m, rfl, hexec, (Host.Outcome.next.inj hretire).symm⟩

theorem packetLength_pos {i : Instr} (hhost : i.isHost = true) : 0 < packetLength i := by
  cases i with
  | senddat len payload => exact Nat.add_pos_left (by decide) _
  | functionSet | displayControl | xAddressSet | yAddressSet | vopSet | temperatureControl | biasSystem =>
    exact absurd hhost Bool.false_ne_true
  | _ => exact Nat.succ_pos _

/-- The packet at `cp` begins and ends within the stream (R60, R63). -/
theorem packet_within {s : State} {i : Instr} {rest : List Byte} (h : decode (s.cmd.drop s.cp) = .ok (i, rest)) :
    s.cp < s.cmd.length ∧ s.cp + packetLength i ≤ s.cmd.length := by
  obtain ⟨hhost, hwf, hbytes⟩ := decode_eq_ok_iff.mp h
  have hlen := congrArg List.length hbytes
  rw [List.length_drop, List.length_append, encode_length hhost hwf] at hlen
  have hpos := packetLength_pos hhost
  omega

/-- Settles O13: the operation writes neither `cp` nor the stream, and the move is by the length of its packet. -/
theorem stepAdvancesThePointerByThePacket : Obligations.StepAdvancesThePointerByThePacket := by
  intro s t h hcp
  obtain ⟨i, rest, m, hdecode, hexec, rfl⟩ := step_next h hcp
  obtain ⟨-, -, -, -, hmcp, hmcmd⟩ := eachRegisterHasItsWriters i s m hexec
  obtain ⟨hhost, hwf, hbytes⟩ := decode_eq_ok_iff.mp hdecode
  refine ⟨hmcmd, packetLength i, ?span, ?moved, ?within⟩
  case span => rw [hbytes, packetSpan_encode hhost]
  case moved => rw [hmcp]
  case within => rw [hmcp]; exact (packet_within hdecode).2

/-- Settles O3: at the end of the stream nothing changes; before it, an operation that keeps the invariant, then the move
of the pointer within the stream. -/
theorem stepKeepsTheInvariant : Obligations.StepKeepsTheInvariant := by
  intro s t h hstep
  by_cases hcp : s.cp = s.cmd.length
  · rw [finishedRunStaysAsItIs s hcp] at hstep
    exact Host.Outcome.next.inj hstep ▸ h
  · obtain ⟨hcmd, n, -, -, hwithin⟩ := stepAdvancesThePointerByThePacket s t hstep hcp
    obtain ⟨i, rest, m, -, hexec, rfl⟩ := step_next hstep hcp
    have hm := h.completes (exec_eq_next_iff.mp hexec)
    exact ⟨hm.memory, hcmd ▸ hwithin, hm.framed, hm.rstLast, hm.ceLast, hm.dcLast, hm.bus, hm.idle, hm.readouts⟩

/-- An operation appends to the histories or leaves them alone. -/
theorem Completes.histories_grow {i : Instr} {s t : State} (h : Completes i s t) :
    s.trace <+: t.trace ∧ s.hostOut <+: t.hostOut := by
  cases h with
  | init => simp
  | sends => simp
  | rdbuf => simp
  | draws | clrbuf | invalidMode | cursorOutside => exact ⟨List.prefix_rfl, List.prefix_rfl⟩

/-- Settles O54: the histories after a step are those its operation leaves. -/
theorem outputHistoriesOnlyGrow : Obligations.OutputHistoriesOnlyGrow := by
  intro s t hstep
  by_cases hcp : s.cp = s.cmd.length
  · rw [finishedRunStaysAsItIs s hcp] at hstep
    exact Host.Outcome.next.inj hstep ▸ ⟨List.prefix_rfl, List.prefix_rfl⟩
  · obtain ⟨i, rest, m, -, hexec, rfl⟩ := step_next hstep hcp
    exact (exec_eq_next_iff.mp hexec).histories_grow

/-! ### A longer stream -/

theorem afterFrames_withCmd (c : List Byte) (fs : List (Level × List Byte)) (s : State) :
    { afterFrames fs s with cmd := c } = afterFrames fs { s with cmd := c } :=
  afterFrames_comm (g := fun t => { t with cmd := c }) (fun _ _ _ => rfl) fs s

theorem afterInit_withCmd (c : List Byte) (s : State) : { afterInit s with cmd := c } = afterInit { s with cmd := c } := by
  simp only [afterInit, afterFrames_withCmd, initStart_eq]

/-- No operation reads the stream: with another one it does the same (R53). -/
theorem Completes.withCmd {i : Instr} {s t : State} (h : Completes i s t) (c : List Byte) :
    Completes i { s with cmd := c } { t with cmd := c } := by
  cases h with
  | init ha =>
    rw [afterInit_withCmd]
    exact .init ha
  | sends hi hb ha =>
    rw [afterFrames_withCmd]
    exact .sends hi hb ha
  | draws hi => exact .draws hi
  | clrbuf =>
    dsimp only
    exact .clrbuf (s := { s with cmd := c })
  | rdbuf => exact .rdbuf
  | invalidMode hmode => exact .invalidMode hmode
  | cursorOutside hout => exact .cursorOutside hout

/-- More bytes behind the stream are more bytes behind the rest of the packet at `cp`. -/
theorem decode_append {bytes rest : List Byte} {i : Instr} (h : decode bytes = .ok (i, rest)) (more : List Byte) :
    decode (bytes ++ more) = .ok (i, rest ++ more) := by
  rw [decode_eq_ok_iff] at h ⊢
  obtain ⟨hhost, hwf, rfl⟩ := h
  exact ⟨hhost, hwf, List.append_assoc _ _ _⟩

/-- Settles O14: the longer stream decodes to the same packet at `cp`, and the operation does not read the stream. -/
theorem longerStreamRunsTheSamePrefix : Obligations.LongerStreamRunsTheSamePrefix := by
  intro s t more hcp hstep
  obtain ⟨i, rest, m, hdecode, hexec, rfl⟩ := step_next hstep hcp.ne
  obtain ⟨-, -, -, -, -, hmcmd⟩ := eachRegisterHasItsWriters i s m hexec
  have hdecode' : decode ((s.cmd ++ more).drop s.cp) = .ok (i, rest ++ more) := by
    rw [List.drop_append_of_le_length hcp.le]
    exact decode_append hdecode more
  have hcp' : s.cp ≠ (s.cmd ++ more).length := by
    rw [List.length_append]
    omega
  have hexec' := exec_eq_next_iff.mpr ((exec_eq_next_iff.mp hexec).withCmd (s.cmd ++ more))
  rw [step_of_decode (s := { s with cmd := s.cmd ++ more }) hcp' hdecode', hexec', thenDo_next, hmcmd]
  rfl

/-! ### The run of a program -/

/-- A run begins with its first step. -/
theorem run_succ_of_step {M : Host.Core} {s m : M.State} (h : M.step s = .next m) (k : Nat) :
    M.run (k + 1) s = M.run k m := by
  rw [Host.Core.run, h]

/-- The bus is configured after INIT, and stays so (R26). -/
theorem busCfg_of_exec {i : Instr} {s t : State} (h : exec i s = .next t) (hbus : s.busCfg = true ∨ i = .init) :
    t.busCfg = true := by
  by_cases hinit : i = .init
  · subst hinit
    rw [(exec_init_next h).2, afterInit_busCfg]
  · obtain ⟨hlines, -⟩ := eachRegisterHasItsWriters i s t h
    rw [(hlines hinit).2]
    exact hbus.resolve_right hinit

/-- One step of a program whose first operation is next in the stream: it completes, and the others are what is left. -/
theorem step_encodeAll_cons {i : Instr} {is : List Instr} {s : State} (hi : i.isHost = true ∧ i.wf = true)
    (hlive : TransportLive s) (hcmd : s.cmd.drop s.cp = encodeAll (i :: is)) (hbus : s.busCfg = true ∨ i = .init) :
    ∃ t, step s = .next t ∧ TransportLive t ∧ t.cp ≤ t.cmd.length ∧ t.cmd.drop t.cp = encodeAll is ∧ t.busCfg = true := by
  have hbytes : s.cmd.drop s.cp = encode i ++ encodeAll is := hcmd
  have hdecode : decode (s.cmd.drop s.cp) = .ok (i, encodeAll is) := decode_eq_ok_iff.mpr ⟨hi.1, hi.2, hbytes⟩
  obtain ⟨hcp, hwithin⟩ := packet_within hdecode
  have hneeds : s.busCfg = true ∨ sendsFrame i = false := hbus.imp_right fun h => by rw [h]; rfl
  have haccepts : s.transport.accepts (bytesSent i) = true := by rw [hlive]; rfl
  obtain ⟨m, hexec, htransport⟩ := (everyOperationCompletes i s).1 hneeds haccepts
  obtain ⟨-, -, -, -, hmcp, hmcmd⟩ := eachRegisterHasItsWriters i s m hexec
  refine ⟨{ m with cp := m.cp + packetLength i }, ?step, ?live, ?within, ?left, ?bus⟩
  case step => rw [step_of_decode hcp.ne hdecode, hexec]; rfl
  case live => exact htransport.trans (by rw [hlive]; rfl)
  case within => simpa only [hmcp, hmcmd] using hwithin
  case bus => exact busCfg_of_exec (t := m) hexec hbus
  case left =>
    simp only [hmcp, hmcmd]
    rw [← List.drop_drop, hbytes, ← encode_length hi.1 hi.2, List.drop_left]

/-- A program that stands in the stream from `cp` to the end runs to its end. -/
theorem run_encodeAll {is : List Instr} {s : State} (his : ∀ i ∈ is, i.isHost = true ∧ i.wf = true)
    (hlive : TransportLive s) (hcp : s.cp ≤ s.cmd.length) (hcmd : s.cmd.drop s.cp = encodeAll is)
    (hbus : s.busCfg = true ∨ is.head? = some .init) :
    ∃ t : State, core.run is.length s = .next t ∧ Finished t := by
  induction is generalizing s with
  | nil => exact ⟨s, rfl, Nat.le_antisymm hcp (List.drop_eq_nil_iff.mp hcmd)⟩
  | cons i is ih =>
    obtain ⟨hi, his'⟩ := List.forall_mem_cons.mp his
    obtain ⟨m, hstep, hlive', hcp', hcmd', hbus'⟩ :=
      step_encodeAll_cons hi hlive hcmd (hbus.imp_right fun h => Option.some.inj h)
    obtain ⟨t, hrun, hfinished⟩ := ih his' hlive' hcp' hcmd' (.inl hbus')
    exact ⟨t, (run_succ_of_step (M := core) hstep is.length).trans hrun, hfinished⟩

/-- Settles O56: at the start the whole stream is left. -/
theorem programRunsToItsEnd : Obligations.ProgramRunsToItsEnd := by
  intro is s his hlive hcp hcmd hbus
  exact run_encodeAll his hlive (by rw [hcp]; exact Nat.zero_le _) (by rw [hcp, hcmd]; rfl) hbus

end Sys2Proof.Machine
end

section
/-! PROOF. The session operations as the packets they equal (O49, O50) and as the frames the peer sees (O51, O52). -/

namespace Sys2Proof.Machine

/-! ### Operations one after another -/

/-- Operations one after another, from what was answered so far; a stop stays a stop (R14). -/
def runParts (is : List Instr) (r : Result) : Result := is.foldl (fun r i => thenDo r fun t => exec i t) r

theorem runParts_cons (i : Instr) (is : List Instr) (s : State) : runParts (i :: is) (.next s) = runParts is (exec i s) := rfl

theorem runParts_append (is js : List Instr) (r : Result) : runParts (is ++ js) r = runParts js (runParts is r) :=
  List.foldl_append

/-- Operations go on from a next state only. -/
theorem runParts_eq_thenDo (is : List Instr) (r : Result) : runParts is r = thenDo r fun s => runParts is (.next s) := by
  cases r with
  | next s => rfl
  | fault | refused =>
    induction is with
    | nil => rfl
    | cons i is ih => exact ih

/-- Operations that are frames of zero bytes (R155). -/
theorem runParts_senddat_zero (n : Nat) (s : State) :
    runParts (List.replicate n (.senddat 1 [0x00])) (.next s) = zeroFrames n s := by
  induction n generalizing s with
  | zero => rfl
  | succ n ih =>
    rw [List.replicate_succ, runParts_cons, runParts_eq_thenDo, zeroFrames_succ]
    exact congrArg _ (funext ih)

/-- Operations that are command frames (R156). -/
theorem runParts_sendcmd (bytes : List Byte) (s : State) : runParts (bytes.map .sendcmd) (.next s) = cmds bytes s := by
  induction bytes generalizing s with
  | nil => rfl
  | cons b bytes ih =>
    rw [List.map_cons, runParts_cons, runParts_eq_thenDo, cmds]
    exact congrArg _ (funext ih)

/-- Settles O49: SENDDAT of the framebuffer is its data frame, and the screen clear is frame after frame. -/
theorem updateAndClrscrEqualTheirParts : Obligations.UpdateAndClrscrEqualTheirParts := by
  intro s
  refine ⟨?update, (runParts_senddat_zero 504 s).symm⟩
  case update =>
    have htake : s.fb.bytes.take (504 : BitVec 16).toNat = s.fb.bytes :=
      List.take_of_length_le (Memory.bytes_length s.fb).le
    simp only [exec_update, exec_setcur, exec_senddat, htake]

/-- Settles O50: the bring-up commands are SENDCMDs, SETMODE 0x04 the last of them, and the clears are CLRBUF and CLRSCR. -/
theorem initEqualsItsParts : Obligations.InitEqualsItsParts := by
  intro s
  have hparts (r : Result) : runParts [.clrbuf, .clrscr] r = thenDo r fun t => clearScreen { t with fb := clearBuffer t.fb } :=
    runParts_eq_thenDo _ r
  rw [exec_init, bringUp, configureBus_resetPulse, ← hparts, ← runParts_sendcmd, ← runParts_append]
  rfl

/-! ### Frames the peer sees -/

/-- The frames the peer sees of frames one after another (R29). -/
def seenFrames (fs : List (Level × List Byte)) : List Frame := fs.map fun f => { dc := some f.1, bytes := f.2 }

/-- Complete frames after a trace with no open frame add exactly themselves to the frame view (R29). -/
theorem frames_framesEvents {t : List Event} (h : framesClosed t = true) (fs : List (Level × List Byte)) :
    frames (t ++ framesEvents fs) = frames t ++ seenFrames fs := by
  induction fs generalizing t with
  | nil => simp [framesEvents, seenFrames]
  | cons f fs ih =>
    rw [framesEvents_cons, ← List.append_assoc, ih (framesClosed_frameEvents h f.1 f.2), frames_frameEvents h, List.append_assoc]
    rfl

/-- Byte `x + (y div 8) * 84` of the readout holds pixel `(x, y)` in its bit `y mod 8` (R41, R152). -/
theorem bytes_getLsbD_eq_pixelAt (m : Memory) {x y : Nat} (hx : x < 84) (hy : y < 48) :
    (m.bytes[x + y / 8 * 84]?).map (fun b => b.getLsbD (y % 8)) = some (pixelAt m x y) := by
  have hindex : m.bytes[x + y / 8 * 84]? = some (m.read (byteIndex x y)) := m.bytes_getElem?_of_lt (byteIndex_lt hx hy)
  rw [hindex, pixelAt_eq]
  rfl

theorem seenFrames_update (fb : Memory) :
    seenFrames (framesOf fb .update) = [commandFrame 0x80, commandFrame 0x40, dataFrame fb.bytes] := by
  rw [framesOf]
  generalize fb.bytes = bytes
  rfl

/-- Settles O51: its three frames, the bytes of the third being the readout of the framebuffer. -/
theorem updateFrameCarriesThePixels : Obligations.UpdateFrameCarriesThePixels := by
  intro s t h hexec
  obtain ⟨-, -, ht⟩ := exec_sends_next rfl hexec
  refine ⟨s.fb.bytes, ?frames, Memory.bytes_length s.fb, fun x y hx hy => bytes_getLsbD_eq_pixelAt s.fb hx hy⟩
  case frames =>
    rw [ht, afterFrames_trace, frames_framesEvents h.framed, seenFrames_update]

/-! ### The instruction set the peer is left in -/

theorem selectedSet_append (fs gs : List Frame) (iset : Option InstrSet) :
    selectedSet (fs ++ gs) iset = selectedSet gs (selectedSet fs iset) :=
  List.foldl_append

/-- Data frames select no instruction set (R30). -/
theorem selectedSet_dataFrames (n : Nat) (bytes : List Byte) (iset : Option InstrSet) :
    selectedSet (List.replicate n (dataFrame bytes)) iset = iset := by
  induction n with
  | zero => rfl
  | succ n ih => exact ih

theorem selectedSet_screenFrames (iset : Option InstrSet) : selectedSet (seenFrames screenFrames) iset = iset := by
  rw [seenFrames, screenFrames, List.map_replicate]
  exact selectedSet_dataFrames _ _ iset

/-- The bring-up ends with function-set basic and a display-control command (R151). -/
theorem selectedSet_bringUpFrames (iset : Option InstrSet) :
    selectedSet (seenFrames bringUpFrames) iset = some .basic := rfl

/-- Settles O52: its frames, read one after another. -/
theorem initLeavesThePeerInTheBasicSet : Obligations.InitLeavesThePeerInTheBasicSet := by
  intro s t before h hexec
  obtain ⟨-, ht⟩ := exec_init_next hexec
  have hframes : frames (afterInit s).trace = frames s.trace ++ seenFrames bringUpFrames ++ seenFrames screenFrames := by
    have hstart : framesClosed (s.trace ++ initStartEvents) = true := by
      rw [framesClosed, scanFrames_initStartEvents]
      exact h.framed
    rw [afterInit_trace, frames_framesEvents hstart, frames, scanFrames_initStartEvents, framesOf_init, List.append_assoc]
    exact congrArg _ List.map_append
  rw [ht, hframes, selectedSet_append, selectedSet_append, selectedSet_bringUpFrames, selectedSet_screenFrames]

end Sys2Proof.Machine
end

section
/-! PROOF. The framebuffer as pixels (spec/20_memory.md): bit addressing both ways and the order of the bits on the wire (O27,
O59), and what drawing does to it (O28 to O30). -/

namespace Sys2Proof.Machine

/-! ### Pixels and bits -/

/-- Settles O27: division with remainder by 84 and by 8. -/
theorem pixelsAndBitsCorrespond : Obligations.PixelsAndBitsCorrespond := by
  unfold Obligations.PixelsAndBitsCorrespond byteIndex bitIndex Config.width
  exact ⟨fun x y hx hy => by omega, fun i b hi hb => by omega⟩

theorem serialBits_getElem? (b : Byte) {i : Nat} (hi : i < 8) : (serialBits b)[i]? = some (b.getLsbD (7 - i)) := by
  rw [serialBits, List.getElem?_map, List.getElem?_range hi, Option.map_some]

/-- Settles O59: bit `i` on the wire is bit `7 - i` of the byte, and the rows of a band share their byte. -/
theorem bytesLeaveMostSignificantBitFirst : Obligations.BytesLeaveMostSignificantBitFirst := by
  refine ⟨fun _ => rfl, fun m x k i _ hi => ?pixel⟩
  case pixel =>
    have hbyte : byteIndex x (8 * k + (7 - i)) = byteIndex x (8 * k) := by
      unfold byteIndex Config.width
      omega
    have hbit : bitIndex (8 * k + (7 - i)) = 7 - i := by
      unfold bitIndex
      omega
    rw [serialBits_getElem? _ hi, pixelAt_eq, hbyte, hbit]

/-! ### Drawing -/

/-- Settles O28: drawing is plotting its points, and plotting sets exactly the points of the surface. -/
theorem drawingSetsExactlyThePlottedPixels : Obligations.DrawingSetsExactlyThePlottedPixels :=
  fun _ s hi hm => ⟨_, exec_drawing hi s, plotAll_wf hm, fun _ _ hx hy => pixelAt_plotAll hm hx hy⟩

/-- Settles O29: a byte in which no point of the surface lies is never written. -/
theorem drawingLeavesOtherBytesAlone : Obligations.DrawingLeavesOtherBytesAlone := by
  intro i s t hi hm hexec a ha
  rw [exec_drawing hi] at hexec
  rw [← Host.Outcome.next.inj hexec]
  exact read_plotAll_other hm ha

/-- Framebuffers in canonical form with equal pixels are equal data: every bit of every byte is a pixel (R42). -/
theorem Memory.ext_pixels {m m' : Memory} (hm : m.wf = true) (hm' : m'.wf = true)
    (h : ∀ x y, x < 84 → y < 48 → pixelAt m x y = pixelAt m' x y) : m = m' := by
  refine Memory.ext_wf hm hm' fun i => ?_
  by_cases hi : i < Config.fbSize
  · refine BitVec.eq_of_getLsbD_eq fun b hb => ?_
    obtain ⟨hx, hy, hbyte, hbit⟩ := pixelsAndBitsCorrespond.2 i b hi hb
    have hpixel := h _ _ hx hy
    rwa [pixelAt_eq, pixelAt_eq, hbyte, hbit] at hpixel
  · rw [Memory.read_outside hm (Nat.not_lt.mp hi), Memory.read_outside hm' (Nat.not_lt.mp hi)]

/-- Settles O30: both lists set the same pixels. -/
theorem plotOrderCannotBeSeen : Obligations.PlotOrderCannotBeSeen := by
  intro ps qs m hm hmem
  refine Memory.ext_pixels (plotAll_wf hm) (plotAll_wf hm) fun x y hx hy => ?_
  rw [pixelAt_plotAll hm hx hy, pixelAt_plotAll hm hx hy, decide_eq_decide.mpr (hmem _)]

end Sys2Proof.Machine
end

section
/-! PROOF. The line (spec/42_rasterizer_line_rect.md section 2), O31 to O34: its points in closed form where the columns are the
longer extent; where the rows are, the coordinates are exchanged. -/

namespace Sys2Proof.Machine

/-! ### Steps across the longer axis -/

/-- Across its longer axis, of extent `d`, a line of extent `e` has made this many steps after `k` steps along it: the
nearest number to `e * k / d`, the lower one at a tie (R111). -/
def crossSteps (d e k : Nat) : Nat := (2 * (e * k) + d - 1) / (2 * d)

/-- The nearest number, said without division: it is within half a step of the true line, and the upper half step counts. -/
theorem crossSteps_eq_iff {d e k j : Nat} (hd : 0 < d) :
    crossSteps d e k = j ↔ 2 * (d * j) < 2 * (e * k) + d ∧ 2 * (e * k) ≤ 2 * (d * j) + d := by
  have hj : (j + 1) * (2 * d) = j * (2 * d) + 2 * d := Nat.succ_mul _ _
  have hcomm : j * (2 * d) = 2 * (d * j) := by ring
  rw [crossSteps, Nat.div_eq_iff (by omega)]
  omega

theorem crossSteps_spec {d : Nat} (hd : 0 < d) (e k : Nat) :
    2 * (d * crossSteps d e k) < 2 * (e * k) + d ∧ 2 * (e * k) ≤ 2 * (d * crossSteps d e k) + d :=
  (crossSteps_eq_iff hd).mp rfl

@[simp] theorem crossSteps_zero (d e : Nat) : crossSteps d e 0 = 0 := by
  rcases Nat.eq_zero_or_pos d with rfl | hd
  · simp [crossSteps]
  · exact (crossSteps_eq_iff hd).mpr ⟨by simpa using hd, by simp⟩

/-- After the whole longer extent the line has made the whole shorter one. -/
theorem crossSteps_full {d e : Nat} (h : e ≤ d) : crossSteps d e d = e := by
  rcases Nat.eq_zero_or_pos d with rfl | hd
  · rw [crossSteps_zero, Nat.le_zero.mp h]
  · rw [crossSteps_eq_iff hd, Nat.mul_comm e d]
    omega

/-- With equal extents every step is a diagonal one. -/
theorem crossSteps_diagonal {d : Nat} (hd : 0 < d) (k : Nat) : crossSteps d d k = k := by
  rw [crossSteps_eq_iff hd]
  omega

theorem crossSteps_le {d k : Nat} (hk : k ≤ d) (e : Nat) : crossSteps d e k ≤ e := by
  rcases Nat.eq_zero_or_pos d with rfl | hd
  · rw [Nat.le_zero.mp hk, crossSteps_zero]
    exact Nat.zero_le e
  obtain ⟨hupper, -⟩ := crossSteps_spec hd e k
  have hmono : e * k ≤ e * d := Nat.mul_le_mul_left e hk
  by_contra hlt
  have hbeyond : d * (e + 1) ≤ d * crossSteps d e k := Nat.mul_le_mul_left d (by omega)
  rw [Nat.mul_succ, Nat.mul_comm d e] at hbeyond
  omega

/-! ### The loop in closed form -/

/-- The decision value of `Line` after `k` steps along the longer axis: `dx` more for every step across, `dy` less for every
step along (R111). -/
def lineErr (d e k : Nat) : Int := (d : Int) - e + ((d * crossSteps d e k : Nat) - (e * k : Nat))

/-- The test for a step across the longer axis. -/
theorem crossSteps_succ {d e : Nat} (hd : 0 < d) (h : e ≤ d) (k : Nat) :
    crossSteps d e (k + 1) = if 2 * lineErr d e k < d then crossSteps d e k + 1 else crossSteps d e k := by
  obtain ⟨hupper, hlower⟩ := crossSteps_spec hd e k
  unfold lineErr
  split
  · rw [crossSteps_eq_iff hd, Nat.mul_succ, Nat.mul_succ]
    omega
  · rw [crossSteps_eq_iff hd, Nat.mul_succ]
    omega

/-- The test for a step along the longer axis always holds. -/
theorem lineErr_gt {d e : Nat} (hd : 0 < d) (h : e ≤ d) (k : Nat) : 2 * lineErr d e k > -(e : Int) := by
  obtain ⟨-, hlower⟩ := crossSteps_spec hd e k
  unfold lineErr
  rcases h.lt_or_eq with hlt | rfl
  · omega
  · rw [crossSteps_diagonal hd]
    omega

theorem lineErr_succ {d e : Nat} (hd : 0 < d) (h : e ≤ d) (k : Nat) :
    lineErr d e (k + 1) = lineErr d e k - e + if 2 * lineErr d e k < d then (d : Int) else 0 := by
  have herr (k : Nat) : lineErr d e k = (d : Int) - e + ((d * crossSteps d e k : Nat) - (e * k : Nat)) := rfl
  rw [herr (k + 1), crossSteps_succ hd h, Nat.mul_succ e]
  have herr := herr k
  split
  · rw [Nat.mul_succ]
    omega
  · omega

/-- The point of plot `k` where the columns are the longer extent. -/
def gridPoint (xa ya xb yb : Int) (k : Nat) : Point :=
  (xa + stepSign xa xb * (k : Int),
    ya + stepSign ya yb * (crossSteps (absNat (xb - xa)) (absNat (yb - ya)) k : Int))

theorem gridPoint_zero (xa ya xb yb : Int) : gridPoint xa ya xb yb 0 = (xa, ya) := by
  simp [gridPoint]

theorem gridPoint_full {xa ya xb yb : Int} (h : absNat (yb - ya) ≤ absNat (xb - xa)) :
    gridPoint xa ya xb yb (absNat (xb - xa)) = (xb, yb) := by
  rw [gridPoint, crossSteps_full h, add_stepSign_mul_absNat, add_stepSign_mul_absNat]

/-- Before the last plot the line is not in the column of its end. -/
theorem gridPoint_fst_ne {xa ya xb yb : Int} {k : Nat} (hk : k < absNat (xb - xa)) : (gridPoint xa ya xb yb k).1 ≠ xb := by
  unfold gridPoint stepSign
  unfold absNat at hk
  split <;> dsimp only <;> omega

/-- The loop from plot `k`, with `n` plots to come after it. -/
theorem lineLoop_gridPoint {xa ya xb yb : Int} {d e : Nat} (hd : d = absNat (xb - xa)) (he : e = absNat (yb - ya)) (h : e ≤ d)
    (n k : Nat) (hk : k + n = d) :
    lineLoop xb yb d e (stepSign xa xb) (stepSign ya yb) (n + 1) (lineErr d e k)
        (gridPoint xa ya xb yb k).1 (gridPoint xa ya xb yb k).2 =
      (List.range' k (n + 1)).map (gridPoint xa ya xb yb) := by
  induction n generalizing k with
  | zero => simp [lineLoop]
  | succ n ih =>
    have hdpos : 0 < d := by omega
    have hnotEnd : ¬ ((gridPoint xa ya xb yb k).1 = xb ∧ (gridPoint xa ya xb yb k).2 = yb) :=
      fun hend => gridPoint_fst_ne (by omega) hend.1
    have hx : (gridPoint xa ya xb yb k).1 + stepSign xa xb = (gridPoint xa ya xb yb (k + 1)).1 := by
      simp only [gridPoint]
      push_cast
      ring
    have hy : (if 2 * lineErr d e k < d then (gridPoint xa ya xb yb k).2 + stepSign ya yb else (gridPoint xa ya xb yb k).2) =
        (gridPoint xa ya xb yb (k + 1)).2 := by
      simp only [gridPoint, ← hd, ← he, crossSteps_succ hdpos h]
      split
      · push_cast
        ring
      · rfl
    rw [lineLoop, if_neg hnotEnd, if_pos (lineErr_gt hdpos h k), if_pos (lineErr_gt hdpos h k), ← lineErr_succ hdpos h, hx, hy,
      ih (k + 1) (by omega)]
    rfl

/-- Where the columns are the longer extent, a line is its closed form, plot by plot (R111, R113 (a)). -/
theorem linePoints_eq_gridPoints {xa ya xb yb : Int} (h : absNat (yb - ya) ≤ absNat (xb - xa)) :
    linePoints xa ya xb yb = (List.range (absNat (xb - xa) + 1)).map (gridPoint xa ya xb yb) := by
  have hloop := lineLoop_gridPoint rfl rfl h (absNat (xb - xa)) 0 (Nat.zero_add _)
  rw [gridPoint_zero, ← List.range_eq_range'] at hloop
  rw [← hloop, linePoints, Nat.max_eq_left h, lineErr]
  simp

/-! ### The obligations -/

/-- `ps` makes as many plots as the longer extent asks for, from the first end point to the second, inside their bounding
box (R113 (a)). -/
def RunsBetween (xa ya xb yb : Int) (ps : List Point) : Prop :=
  ps.length = max (xb - xa).natAbs (yb - ya).natAbs + 1 ∧ ps.head? = some (xa, ya) ∧ ps.getLast? = some (xb, yb) ∧
    ∀ p ∈ ps, min xa xb ≤ p.1 ∧ p.1 ≤ max xa xb ∧ min ya yb ≤ p.2 ∧ p.2 ≤ max ya yb

theorem RunsBetween.swap {xa ya xb yb : Int} {ps : List Point} (h : RunsBetween xa ya xb yb ps) :
    RunsBetween ya xa yb xb (ps.map Prod.swap) := by
  obtain ⟨hlength, hfirst, hlast, hbox⟩ := h
  refine ⟨?_, ?_, ?_, ?_⟩
  · rw [List.length_map, hlength, max_comm]
  · rw [List.head?_map, hfirst]
    rfl
  · rw [List.getLast?_map, hlast]
    rfl
  · rintro _ hp
    obtain ⟨p, hmem, rfl⟩ := List.mem_map.mp hp
    obtain ⟨hleft, hright, hlow, hhigh⟩ := hbox p hmem
    exact ⟨hlow, hhigh, hleft, hright⟩

theorem runsBetween_of_gridPoints {xa ya xb yb : Int} (h : absNat (yb - ya) ≤ absNat (xb - xa)) :
    RunsBetween xa ya xb yb (linePoints xa ya xb yb) := by
  rw [linePoints_eq_gridPoints h]
  refine ⟨?length, ?first, ?last, fun p hp => ?box⟩
  case length =>
    rw [List.length_map, List.length_range]
    exact congrArg (· + 1) (Nat.max_eq_left h).symm
  case first => rw [List.head?_map, List.head?_range, if_neg (Nat.succ_ne_zero _), Option.map_some, gridPoint_zero]
  case last =>
    rw [List.getLast?_map, List.getLast?_range, if_neg (Nat.succ_ne_zero _), Option.map_some, Nat.add_sub_cancel,
      gridPoint_full h]
  case box =>
    obtain ⟨k, hk, rfl⟩ := List.mem_map.mp hp
    rw [List.mem_range] at hk
    have hcross := Nat.lt_succ_of_le (crossSteps_le (Nat.le_of_lt_succ hk) (absNat (yb - ya)))
    obtain ⟨hleft, hright⟩ := (exists_step_iff xa xb _).mp ⟨k, hk, rfl⟩
    obtain ⟨hlow, hhigh⟩ := (exists_step_iff ya yb _).mp ⟨_, hcross, rfl⟩
    exact ⟨hleft, hright, hlow, hhigh⟩

/-- Settles O31: in closed form, with the coordinates exchanged where the rows are the longer extent. -/
theorem linePlotsFromEndToEnd : Obligations.LinePlotsFromEndToEnd := by
  intro xa ya xb yb
  rcases Nat.le_total (absNat (yb - ya)) (absNat (xb - xa)) with h | h
  · exact runsBetween_of_gridPoints h
  · rw [← linePoints_swap]
    exact (runsBetween_of_gridPoints h).swap

/-- Plot `k` of a line whose longer extent is that of the columns (R111). -/
theorem nearest_of_getElem? {xa ya xb yb : Int} {k : Nat} {p : Point} (hp : (linePoints xa ya xb yb)[k]? = some p)
    (h : |yb - ya| ≤ |xb - xa|) (hne : xa ≠ xb) :
    p.1 = xa + (if xa < xb then 1 else -1) * (k : Int) ∧
      ∃ j : Nat, p.2 = ya + (if ya < yb then 1 else -1) * (j : Int) ∧
        -|xb - xa| ≤ 2 * (|xb - xa| * j - |yb - ya| * k) ∧ 2 * (|xb - xa| * j - |yb - ya| * k) < |xb - xa| := by
  have habs (a : Int) : |a| = (absNat a : Int) := Int.abs_eq_natAbs a
  rw [habs, habs] at h ⊢
  have hle : absNat (yb - ya) ≤ absNat (xb - xa) := Int.ofNat_le.mp h
  have hpos : 0 < absNat (xb - xa) := Int.natAbs_pos.mpr (by omega)
  rw [linePoints_eq_gridPoints hle, List.getElem?_map, Option.map_eq_some_iff] at hp
  obtain ⟨k', hget, rfl⟩ := hp
  obtain ⟨hlt, hk'⟩ := List.getElem?_eq_some_iff.mp hget
  rw [List.getElem_range] at hk'
  subst hk'
  obtain ⟨hupper, hlower⟩ := crossSteps_spec hpos (absNat (yb - ya)) k
  exact ⟨rfl, _, rfl, by omega, by omega⟩

/-- Settles O32: the closed form of a line, with the coordinates exchanged for the second clause. -/
theorem lineTakesTheNearestGridPoints : Obligations.LineTakesTheNearestGridPoints := by
  intro xa ya xb yb k p hp
  refine ⟨nearest_of_getElem? hp, nearest_of_getElem? (p := p.swap) ?swapped⟩
  case swapped => rw [← linePoints_swap, List.getElem?_map, hp, Option.map_some]

/-- Settles O33: the points of a line along an axis. -/
theorem straightLinesPlotEveryPointBetween : Obligations.StraightLinesPlotEveryPointBetween :=
  fun a b c p => ⟨mem_linePoints_horizontal a b c p, mem_linePoints_vertical a b c p⟩

/-- The loop sees its position only in the end test, so a moved loop makes the same turns. -/
theorem lineLoop_translate (xb yb dx dy sx sy u v : Int) (turns : Nat) (err x y : Int) :
    lineLoop (xb + u) (yb + v) dx dy sx sy turns err (x + u) (y + v) =
      (lineLoop xb yb dx dy sx sy turns err x y).map fun p => (p.1 + u, p.2 + v) := by
  induction turns generalizing err x y with
  | zero => rfl
  | succ turns ih =>
    have hx (c : Prop) [Decidable c] : (if c then x + u + sx else x + u) = (if c then x + sx else x) + u := by
      split <;> ring
    have hy (c : Prop) [Decidable c] : (if c then y + v + sy else y + v) = (if c then y + sy else y) + v := by
      split <;> ring
    simp only [lineLoop, add_left_inj, hx, hy, ih, List.map_cons, apply_ite (List.map _), List.map_nil]

/-- Settles O34: the extents and the step signs of the moved line are the same. -/
theorem lineMovesWithItsEndPoints : Obligations.LineMovesWithItsEndPoints := by
  intro xa ya xb yb u v
  have hsign (a b w : Int) : stepSign (a + w) (b + w) = stepSign a b := by simp [stepSign]
  rw [linePoints, linePoints, add_sub_add_right_eq_sub, add_sub_add_right_eq_sub, hsign, hsign, lineLoop_translate]

end Sys2Proof.Machine
end

section
/-! PROOF. Interpolation (spec/43_rasterizer_triangle.md, R133), O39: `tdiv` is the integer quotient rounded toward zero. -/

namespace Sys2Proof.Machine

theorem sign_mul_natAbs (v : Int) : sign v * (v.natAbs : Int) = v := by
  unfold sign
  split
  · omega
  · split <;> omega

/-- A sign times a natural number has at most the number's size. -/
theorem abs_sign_mul_le (v : Int) (n : Nat) : |sign v * (n : Int)| ≤ n := by
  unfold sign
  split
  · simp
  · split <;> simp

/-- The divisor times the quotient has the sign of the dividend, and the size that division of natural numbers gives it. -/
theorem mul_tdiv (a b : Int) : b * tdiv a b = sign a * ((b.natAbs * (a.natAbs / b.natAbs) : Nat) : Int) := by
  have hb : b * sign b = b.natAbs := by
    unfold sign
    split
    · omega
    · split <;> omega
  rw [tdiv, absNat, absNat, Nat.cast_mul, ← hb]
  ring

/-- What the quotient leaves has the sign of the dividend, and the size of the remainder of natural numbers. -/
theorem sub_mul_tdiv (a b : Int) : a - b * tdiv a b = sign a * ((a.natAbs % b.natAbs : Nat) : Int) := by
  have hsplit : (a.natAbs : Int) = ((b.natAbs * (a.natAbs / b.natAbs) : Nat) : Int) + ((a.natAbs % b.natAbs : Nat) : Int) := by
    rw [← Nat.cast_add, Nat.div_add_mod]
  calc a - b * tdiv a b
      = sign a * (a.natAbs : Int) - sign a * ((b.natAbs * (a.natAbs / b.natAbs) : Nat) : Int) := by
        rw [mul_tdiv, sign_mul_natAbs]
    _ = sign a * ((a.natAbs % b.natAbs : Nat) : Int) := by rw [← mul_sub, hsplit, add_sub_cancel_left]

/-- The quotient of a multiple is exact. -/
theorem tdiv_mul_self {b : Int} (hb : b ≠ 0) (c : Int) : tdiv (c * b) b = c := by
  have hdvd : b.natAbs ∣ (c * b).natAbs := Int.natAbs_dvd_natAbs.mpr (dvd_mul_left b c)
  have hmul : b * tdiv (c * b) b = b * c := by
    rw [mul_tdiv, Nat.mul_div_cancel' hdvd, sign_mul_natAbs, mul_comm]
  exact mul_left_cancel₀ hb hmul

theorem interp_first (xa ya xb yb : Int) : interp xa ya xb yb ya = xa := by
  simp [interp, tdiv, sign]

theorem interp_second {ya yb : Int} (h : ya ≠ yb) (xa xb : Int) : interp xa ya xb yb yb = xb := by
  rw [interp, if_neg h, tdiv_mul_self (sub_ne_zero.mpr h.symm), add_sub_cancel]

theorem interp_horizontal (xa ya xb y : Int) : interp xa ya xb ya y = xa := if_pos rfl

/-- Settles O39: the ends of an edge, and division of natural numbers with the signs put back. -/
theorem interpolationMeetsTheEdgeEnds : Obligations.InterpolationMeetsTheEdgeEnds := by
  refine ⟨fun xa ya xb yb => ⟨interp_first xa ya xb yb, fun h => interp_second h xa xb⟩, interp_horizontal,
    fun a b hb => ⟨?remainder, ?size, ?sameSign⟩⟩
  case remainder =>
    calc |a - b * tdiv a b| ≤ ((a.natAbs % b.natAbs : Nat) : Int) := by
          rw [sub_mul_tdiv]
          exact abs_sign_mul_le a _
      _ < (b.natAbs : Int) := Int.ofNat_lt.mpr (Nat.mod_lt _ (Int.natAbs_pos.mpr hb))
      _ = |b| := (Int.abs_eq_natAbs b).symm
  case size =>
    calc |b * tdiv a b| ≤ ((b.natAbs * (a.natAbs / b.natAbs) : Nat) : Int) := by
          rw [mul_tdiv]
          exact abs_sign_mul_le a _
      _ ≤ (a.natAbs : Int) := Int.ofNat_le.mpr (Nat.mul_div_le _ _)
      _ = |a| := (Int.abs_eq_natAbs a).symm
  case sameSign =>
    calc (0 : Int) ≤ (sign a * sign a) * ((a.natAbs * (b.natAbs * (a.natAbs / b.natAbs)) : Nat) : Int) :=
          mul_nonneg (mul_self_nonneg _) (Int.natCast_nonneg _)
      _ = (sign a * (a.natAbs : Int)) * (b * tdiv a b) := by
          rw [mul_tdiv, Nat.cast_mul]
          ring
      _ = a * (b * tdiv a b) := by rw [sign_mul_natAbs]

end Sys2Proof.Machine
end

section
/-! PROOF. The circle (spec/44_rasterizer_circle.md), O40 to O45: what every turn of the loop keeps, and the points of CIRC and
CIRCF by their distances from the centre. -/

namespace Sys2Proof.Machine

/-! ### The loop -/

/-- One turn of the loop (R141). -/
def circleTurn (c : CircleState) : CircleState := circleStepX (circleStepY c)

@[simp] theorem circleTurn_x (c : CircleState) : (circleTurn c).x = c.x + 1 := by
  unfold circleTurn circleStepX circleStepY
  split <;> rfl

@[simp] theorem circleTurn_y (c : CircleState) : (circleTurn c).y = if 0 ≤ c.f then c.y - 1 else c.y := by
  unfold circleTurn circleStepX circleStepY
  split <;> rfl

/-- A turn moves at most one row down. -/
theorem circleTurn_y_bounds (c : CircleState) : c.y - 1 ≤ (circleTurn c).y ∧ (circleTurn c).y ≤ c.y := by
  rw [circleTurn_y]
  split <;> omega

/-- Every state the loop visits is a turn from a state in which the loop goes on and which keeps what every turn keeps. -/
theorem mem_circleTurns {keeps : CircleState → Prop} (hturn : ∀ c, keeps c → c.x < c.y → keeps (circleTurn c)) {n : Nat}
    {c d : CircleState} (hc : keeps c) (hd : d ∈ circleTurns n c) : ∃ b, keeps b ∧ b.x < b.y ∧ d = circleTurn b := by
  induction n generalizing c with
  | zero => exact nomatch hd
  | succ n ih =>
    rw [circleTurns] at hd
    split at hd
    · next hlt =>
      rcases List.mem_cons.mp hd with rfl | hd
      · exact ⟨c, hc, hlt, rfl⟩
      · exact ih (hturn c hc hlt) hd
    · exact nomatch hd

/-- The distance `y - x` shrinks by every turn, so more turns than it change nothing (R144 (a)). -/
theorem circleTurns_add {n : Nat} {c : CircleState} (h : c.y - c.x ≤ n) (extra : Nat) :
    circleTurns (n + extra) c = circleTurns n c := by
  induction n generalizing c with
  | zero =>
    have hended : ¬ c.x < c.y := by omega
    rw [Nat.zero_add]
    cases extra with
    | zero => rfl
    | succ extra => exact if_neg hended
  | succ n ih =>
    have hx := circleTurn_x c
    have hy := circleTurn_y_bounds c
    rw [Nat.succ_add, circleTurns, circleTurns]
    split
    · exact congrArg _ (ih (c := circleTurn c) (by omega))
    · rfl

/-- What bounds the loop before every turn (R144 (b)). -/
def CircleBounds (r : Int) (c : CircleState) : Prop := 0 ≤ c.x ∧ 0 ≤ c.y ∧ c.y ≤ r

theorem CircleBounds.start (r : Byte) : CircleBounds r.toNat (circleStart (zext r)) :=
  ⟨le_rfl, Int.natCast_nonneg _, le_rfl⟩

theorem CircleBounds.turn {r : Int} (c : CircleState) (h : CircleBounds r c) (hlt : c.x < c.y) :
    CircleBounds r (circleTurn c) := by
  obtain ⟨hx, hy, hr⟩ := h
  have hturn := circleTurn_y_bounds c
  rw [CircleBounds, circleTurn_x]
  omega

theorem circleLoop_bounds {r : Byte} {c : CircleState} (hc : c ∈ circleLoop r) :
    1 ≤ c.x ∧ c.x ≤ c.y + 1 ∧ 0 ≤ c.y ∧ c.y ≤ r.toNat := by
  obtain ⟨b, ⟨hx, hy, hr⟩, hlt, rfl⟩ := mem_circleTurns CircleBounds.turn (CircleBounds.start r) hc
  have hturn := circleTurn_y_bounds b
  rw [circleTurn_x]
  omega

/-- Settles O40: the loop starts at distance `radius`, and every state it visits is a turn from one within the bounds. -/
theorem circleLoopEndsWithinItsBounds : Obligations.CircleLoopEndsWithinItsBounds :=
  fun r => ⟨fun extra => circleTurns_add (by simp [circleStart]) extra, fun _ hc => circleLoop_bounds hc⟩

/-- The meaning of the decision variable and its two increments (R141, D12). -/
def DecisionMeaning (r : Int) (c : CircleState) : Prop :=
  c.f = (c.x + 1) * (c.x + 1) + c.y * c.y - c.y - r * r ∧ c.ddFx = 2 * c.x + 1 ∧ c.ddFy = -2 * c.y

theorem DecisionMeaning.start (r : Int) : DecisionMeaning r (circleStart r) :=
  ⟨by simp only [circleStart]; ring, rfl, rfl⟩

theorem DecisionMeaning.stepY {r : Int} {c : CircleState} (h : DecisionMeaning r c) : DecisionMeaning r (circleStepY c) := by
  obtain ⟨hf, hx, hy⟩ := h
  unfold circleStepY
  split
  · refine ⟨?_, hx, ?_⟩ <;> simp only [hf, hy] <;> ring
  · exact ⟨hf, hx, hy⟩

theorem DecisionMeaning.stepX {r : Int} {c : CircleState} (h : DecisionMeaning r c) : DecisionMeaning r (circleStepX c) := by
  obtain ⟨hf, hx, hy⟩ := h
  refine ⟨?_, ?_, hy⟩ <;> simp only [circleStepX, hf, hx] <;> ring

theorem DecisionMeaning.turn {r : Int} (c : CircleState) (h : DecisionMeaning r c) (_ : c.x < c.y) :
    DecisionMeaning r (circleTurn c) :=
  h.stepY.stepX

/-- Settles O41: both parts of a turn keep the meaning. -/
theorem circleDecisionVariableKeepsItsMeaning : Obligations.CircleDecisionVariableKeepsItsMeaning := by
  intro r c hc
  obtain ⟨b, hb, hlt, rfl⟩ := mem_circleTurns DecisionMeaning.turn (DecisionMeaning.start (zext r)) hc
  exact DecisionMeaning.turn b hb hlt

/-! ### The points by their distances from the centre -/

/-- The two numbers at a distance from another. -/
theorem abs_sub_eq_iff {w : Int} (hw : 0 ≤ w) (z a : Int) : |z - a| = w ↔ z = a + w ∨ z = a - w := by
  rw [Int.abs_eq_natAbs]
  omega

theorem mem_axisPoints {r : Int} (hr : 0 ≤ r) (x0 y0 : Int) (p : Point) :
    p ∈ axisPoints x0 y0 r ↔ (|p.1 - x0| = r ∧ p.2 = y0) ∨ (p.1 = x0 ∧ |p.2 - y0| = r) := by
  obtain ⟨px, py⟩ := p
  simp only [axisPoints, List.mem_cons, List.not_mem_nil, or_false, Prod.mk.injEq, abs_sub_eq_iff hr]
  rw [or_and_right, and_or_left, ← or_assoc]
  exact or_comm

theorem mem_octants {x y : Int} (hx : 0 ≤ x) (hy : 0 ≤ y) (x0 y0 : Int) (p : Point) :
    p ∈ octants x0 y0 x y ↔ (|p.1 - x0| = x ∧ |p.2 - y0| = y) ∨ (|p.1 - x0| = y ∧ |p.2 - y0| = x) := by
  obtain ⟨px, py⟩ := p
  simp only [octants, List.mem_cons, List.not_mem_nil, or_false, Prod.mk.injEq, abs_sub_eq_iff hx, abs_sub_eq_iff hy,
    and_or_left]
  simp only [or_and_right, or_assoc]

/-- A horizontal line that reaches as far to both sides of a column. -/
theorem mem_linePoints_centred {w : Int} (hw : 0 ≤ w) (x0 y : Int) (p : Point) :
    p ∈ linePoints (x0 - w) y (x0 + w) y ↔ p.2 = y ∧ |p.1 - x0| ≤ w := by
  rw [mem_linePoints_horizontal, Int.abs_eq_natAbs]
  omega

theorem mem_spans {x y : Int} (hx : 0 ≤ x) (hy : 0 ≤ y) (x0 y0 : Int) (p : Point) :
    p ∈ spans x0 y0 x y ↔ (|p.2 - y0| = y ∧ |p.1 - x0| ≤ x) ∨ (|p.2 - y0| = x ∧ |p.1 - x0| ≤ y) := by
  simp only [spans, List.mem_append, mem_linePoints_centred hx, mem_linePoints_centred hy, abs_sub_eq_iff hx,
    abs_sub_eq_iff hy, or_and_right, or_assoc]

/-- CIRC: the axis points, and the octants of each turn (R142). -/
theorem mem_circPoints (x0 y0 r : Byte) (p : Point) :
    p ∈ circPoints x0 y0 r ↔
      (|p.1 - x0.toNat| = r.toNat ∧ p.2 = y0.toNat) ∨ (p.1 = x0.toNat ∧ |p.2 - y0.toNat| = r.toNat) ∨
        ∃ c ∈ circleLoop r, (|p.1 - x0.toNat| = c.x ∧ |p.2 - y0.toNat| = c.y) ∨
          (|p.1 - x0.toNat| = c.y ∧ |p.2 - y0.toNat| = c.x) := by
  have hr : 0 ≤ zext r := Int.natCast_nonneg _
  have hoctants (c : CircleState) (hc : c ∈ circleLoop r) :
      p ∈ octants (zext x0) (zext y0) c.x c.y ↔
        (|p.1 - zext x0| = c.x ∧ |p.2 - zext y0| = c.y) ∨ (|p.1 - zext x0| = c.y ∧ |p.2 - zext y0| = c.x) := by
    obtain ⟨hx, -, hy, -⟩ := circleLoop_bounds hc
    exact mem_octants (by omega) hy _ _ p
  rw [circPoints, List.mem_append, mem_axisPoints hr, List.mem_flatMap, or_assoc]
  exact or_congr_right (or_congr_right (exists_congr fun c => and_congr_right (hoctants c)))

theorem or_absorb_first {a b c d : Prop} (h : a → d) : ((a ∨ b) ∨ c) ∨ d ↔ d ∨ b ∨ c := by
  rw [or_comm, or_assoc, ← or_assoc, or_iff_left_of_imp h]

/-- CIRCF: the axis points, the spans of each turn, and the diameter, which holds the axis points of its row (R143). -/
theorem mem_circfPoints (x0 y0 r : Byte) (p : Point) :
    p ∈ circfPoints x0 y0 r ↔
      (p.2 = y0.toNat ∧ |p.1 - x0.toNat| ≤ r.toNat) ∨ (p.1 = x0.toNat ∧ |p.2 - y0.toNat| = r.toNat) ∨
        ∃ c ∈ circleLoop r, (|p.2 - y0.toNat| = c.y ∧ |p.1 - x0.toNat| ≤ c.x) ∨
          (|p.2 - y0.toNat| = c.x ∧ |p.1 - x0.toNat| ≤ c.y) := by
  have hr : 0 ≤ zext r := Int.natCast_nonneg _
  have hspans (c : CircleState) (hc : c ∈ circleLoop r) :
      p ∈ spans (zext x0) (zext y0) c.x c.y ↔
        (|p.2 - zext y0| = c.y ∧ |p.1 - zext x0| ≤ c.x) ∨ (|p.2 - zext y0| = c.x ∧ |p.1 - zext x0| ≤ c.y) := by
    obtain ⟨hx, -, hy, -⟩ := circleLoop_bounds hc
    exact mem_spans (by omega) hy _ _ p
  have hdiameter : |p.1 - zext x0| = zext r ∧ p.2 = zext y0 → p.2 = zext y0 ∧ |p.1 - zext x0| ≤ zext r :=
    fun ⟨hx, hy⟩ => ⟨hy, hx.le⟩
  rw [circfPoints, List.mem_append, List.mem_append, mem_axisPoints hr, mem_linePoints_centred hr, List.mem_flatMap,
    exists_congr fun c => and_congr_right (hspans c)]
  exact or_absorb_first hdiameter

/-! ### The obligations -/

/-- Settles O42: the pixels of its points. -/
theorem circDrawsTheEightFoldImages : Obligations.CircDrawsTheEightFoldImages := by
  intro x0 y0 radius s hm
  refine ⟨_, exec_drawing rfl s, fun x y hx hy => ?_⟩
  rw [pixelAt_plotAll_iff hm hx hy, plottedPoints, mem_circPoints]

/-- Settles O43: the pixels of its points. -/
theorem circfDrawsTheSpansAndTheDiameter : Obligations.CircfDrawsTheSpansAndTheDiameter := by
  intro x0 y0 radius s hm
  refine ⟨_, exec_drawing rfl s, fun x y hx hy => ?_⟩
  rw [pixelAt_plotAll_iff hm hx hy, plottedPoints, mem_circfPoints]

/-- A mirror image has the same distance from the mirror. -/
theorem abs_mirror (a x : Int) : |2 * a - x - a| = |x - a| := by
  rw [abs_sub_comm x a]
  congr 1
  ring

/-- Settles O44: the points are given by their distances from the centre. -/
theorem circleIsSymmetricAboutItsCentre : Obligations.CircleIsSymmetricAboutItsCentre := by
  intro x0 y0 radius x y
  have hx : 2 * (x0.toNat : Int) - x = x0.toNat ↔ x = x0.toNat := by omega
  have hy : 2 * (y0.toNat : Int) - y = y0.toNat ↔ y = y0.toNat := by omega
  simp only [mem_circPoints, abs_mirror, hx, hy, and_self]

/-- Settles O45: the axis points, and every octant point at the end of a span. -/
theorem discContainsItsOutline : Obligations.DiscContainsItsOutline := by
  intro x0 y0 radius p hp
  rw [mem_circfPoints]
  rcases (mem_circPoints x0 y0 radius p).mp hp with ⟨hx, hy⟩ | hcolumn | ⟨c, hc, ⟨hx, hy⟩ | ⟨hx, hy⟩⟩
  · exact .inl ⟨hy, hx.le⟩
  · exact .inr (.inl hcolumn)
  · exact .inr (.inr ⟨c, hc, .inl ⟨hy, hx.le⟩⟩)
  · exact .inr (.inr ⟨c, hc, .inr ⟨hy, hx.le⟩⟩)

end Sys2Proof.Machine
end
